-- ==== Sys2Proof/Word.lean ====
section
/-! DEFINITION. The widths of the block's quantities (spec 00_scope.md R6, R10; 42_scheduler_ops.md R182). All are unsigned. -/
namespace Sys2Proof

/-- An input byte, and the value part of a message unit (R8, R33). -/
abbrev Byte := BitVec 8

/-- A channel identifier, `0 .. 15` (R70). -/
abbrev ChanId := BitVec 4

/-- The seven payload bits of a data byte (R102). -/
abbrev Payload := BitVec 7

/-- A gate duration in milliseconds, 14 bits (R106, R182). -/
abbrev Duration := BitVec 14

/-- A sample of the millisecond clock, `TW = 32` bits (R6; log 7). -/
abbrev Time := BitVec 32

/-- A duty-cycle value, `DW = 8` bits (R6; log 7). -/
abbrev Duty := BitVec 8

end Sys2Proof
end

