-- ==== Sys2Proof/Syntax.lean ====
section
/-! DEFINITION. The instructions: one constructor per row of spec/opcode_table.json (spec 30_encoding.md R100, R104). The
operand types have exactly the widths of the encoding's fields, so every term is a well-formed instruction. `Tick` and
`Reset` have no encoding (R110); they are input events, not instructions. -/
namespace Sys2Proof

inductive Instr where
  /-- `DATA`, `0ddddddd` (R102). -/
  | data (d : Payload)
  /-- `ST_NOTE`, `1000cccc` (R101). -/
  | stNote (c : ChanId)
  /-- `ST_GATE`, `1001cccc` (R101). -/
  | stGate (c : ChanId)
  /-- `RSV_AB`, `101xxxxx` (R103); `x` is ignored. -/
  | rsvAB (x : BitVec 5)
  /-- `RSV_CF`, `11xxxxxx` (R103); `x` is ignored. -/
  | rsvCF (x : BitVec 6)
  /-- `NOTE`, `1000cccc 0nnnnnnn` (R104). -/
  | note (c : ChanId) (n : Payload)
  /-- `GATE`, `1001cccc 0hhhhhhh 0lllllll` (R104), with `d = {h, l}` (R161). -/
  | gate (c : ChanId) (d : Duration)
deriving DecidableEq, Repr

end Sys2Proof
end

