-- ==== Sys2Proof/Decode.lean ====
section
/-! DEFINITION. Decoder and encoder of the wire format (spec 30_encoding.md R100 to R105). The decoder reads the first
instruction of the bytes of ONE `feed` call: a whole frame where the bytes at the front make one up without a gap (R104,
R109), else the single byte (R100). Every nonempty sequence decodes: no byte value is an error (R103, R230). -/
namespace Sys2Proof

/-- What the decoder answers. -/
inductive DecodeResult where
  /-- The first instruction, and the bytes after it. -/
  | instr (i : Instr) (rest : List Byte)
  /-- There is no byte to decode: the one input the decoder rejects. -/
  | noByte
deriving DecidableEq, Repr

/-- `kind = b[7:4]` (R10, R100). -/
def highNibble (b : Byte) : BitVec 4 := b.extractLsb' 4 4

/-- `b[3:0]` (R10, R101). -/
def lowNibble (b : Byte) : BitVec 4 := b.extractLsb' 0 4

/-- `b[6:0]` (R102). -/
def lowSeven (b : Byte) : Payload := b.extractLsb' 0 7

/-- A data byte: "nibble value ≤ 0x7" (R100). -/
def isDataByte (b : Byte) : Bool := highNibble b ≤ 7

/-- The class of one byte, by its high nibble alone (R100). -/
def decodeByte (b : Byte) : Instr :=
  if isDataByte b then .data (lowSeven b)
  else if highNibble b = 0x8 then .stNote (lowNibble b)
  else if highNibble b = 0x9 then .stGate (lowNibble b)
  else if highNibble b ≤ 0xB then .rsvAB (b.extractLsb' 0 5)
  else .rsvCF (b.extractLsb' 0 6)

/-- A frame at the front of a byte sequence, if its bytes arrive consecutively (R104, R105). -/
def decodeFrame : List Byte → Option (Instr × List Byte)
  | b0 :: b1 :: rest =>
    if highNibble b0 = 0x8 then
      if isDataByte b1 then some (.note (lowNibble b0) (lowSeven b1), rest) else none
    else if highNibble b0 = 0x9 then
      match rest with
      | b2 :: rest' =>
        if isDataByte b1 && isDataByte b2 then
          some (.gate (lowNibble b0) (lowSeven b1 ++ lowSeven b2), rest')
        else none
      | [] => none
    else none
  | _ => none

/-- The first instruction of a byte sequence (R100, R104). -/
def decode (bytes : List Byte) : DecodeResult :=
  match bytes with
  | [] => .noByte
  | b :: rest =>
    match decodeFrame (b :: rest) with
    | some (i, rest') => .instr i rest'
    | none => .instr (decodeByte b) rest

/-- The bytes of an instruction, first on the wire first (R101, R102, R103, R104, R108). -/
def encode : Instr → List Byte
  | .data d => [0b0#1 ++ d]
  | .stNote c => [0x8#4 ++ c]
  | .stGate c => [0x9#4 ++ c]
  | .rsvAB x => [0b101#3 ++ x]
  | .rsvCF x => [0b11#2 ++ x]
  | .note c n => [0x8#4 ++ c, 0b0#1 ++ n]
  | .gate c d => [0x9#4 ++ c, 0b0#1 ++ d.extractLsb' 7 7, 0b0#1 ++ d.extractLsb' 0 7]

/-- How many bytes an instruction has (R105). -/
def Instr.byteLen (i : Instr) : Nat := (encode i).length

/-- The `n` bytes of a table word: "first byte on the wire is the most significant byte of the pattern"
(opcode_table.json `byte_order`; R104 "first byte leftmost"; log 5). -/
def wordBytesMsbFirst : Nat → Nat → List Byte
  | 0, _ => []
  | n + 1, w => BitVec.ofNat 8 (w >>> (8 * n)) :: wordBytesMsbFirst n w

/-- The bytes of a table word of `nbits` bits. No byte is added after them: no row has an operand beyond its width, and the
end of a `feed` call is what ends the bytes offered to the decoder (log 5). -/
def wordBytes (nbits w : Nat) : List Byte := wordBytesMsbFirst ((nbits + 7) / 8) w

/-- The instruction the decoder reads from the word of a row of spec/opcode_table.json. -/
def decodeTableWord (nbits w : Nat) : Option Instr :=
  match decode (wordBytes nbits w) with
  | .instr i _ => some i
  | .noByte => none

end Sys2Proof
end

