-- ==== Sys2Proof/Config.lean ====
section
/-! DEFINITION. The parameters of the block (spec 00_scope.md R6, 10_state.md R43), fixed before reset and read-only
afterwards. They are arguments in the spec; the model carries them in State as read-only data (log 1). The spec leaves no
result of an instruction open, so there is no free value here. -/
namespace Sys2Proof

/-- `PwmRoute`, the opaque set of duty registers (R70). DESIGN CHOICE: numbers as names (log 14). -/
abbrev PwmRoute := Nat

/-- `PinRoute`, the opaque set of gate pins (R70). DESIGN CHOICE: numbers as names (log 14). -/
abbrev PinRoute := Nat

/-- `gateState` of an event record (R37). -/
inductive GateState where
  | notStarted
  | running
  | finished
deriving DecidableEq, Repr

/-- `CFG[p]` (R6, R43): one configured channel. `lutSize` is the length of `lut`. -/
structure ChannelCfg where
  chan : ChanId
  pwm  : PwmRoute
  pin  : PinRoute
  lut  : List Duty
deriving DecidableEq, Repr

/-- `CFG` with the parameter `RESET_GATE_STATE` (R6); `NCH` is the length of `chans`. -/
structure Config where
  chans          : List ChannelCfg
  resetGateState : GateState
deriving DecidableEq, Repr

/-- `CAP`, the capacity of an assembly buffer in message units (R6, R32). -/
abbrev CAP : Nat := 3

/-- The largest `NCH` (R6, R7). -/
abbrev maxChannels : Nat := 16

/-- `NCH`, the number of configured channels (R6). -/
abbrev Config.nch (cfg : Config) : Nat := cfg.chans.length

/-- What `CFG[p]` reads as at a position `p >= NCH`, where the spec has no entry. No rule reads it (log 16). -/
abbrev ChannelCfg.absent : ChannelCfg := { chan := 0, pwm := 0, pin := 0, lut := [] }

/-- `CFG[p]` (R6). -/
def Config.entry (cfg : Config) (p : Nat) : ChannelCfg := cfg.chans.getD p ChannelCfg.absent

/-- The test configuration TESTCFG (95_test_vectors.md section 0), the configuration of `State.reset` (log 1). -/
def Config.testcfg : Config :=
  { chans :=
      [ { chan := 0, pwm := 0, pin := 0, lut := [16, 80, 144, 208] },
        { chan := 1, pwm := 1, pin := 1, lut := [16, 80, 144, 208] },
        { chan := 5, pwm := 2, pin := 5, lut := [7, 9, 11] } ],
    resetGateState := .finished }

end Sys2Proof
end

