-- ==== Sys2Proof/Machine/State.lean ====
section
/-! DEFINITION. The state of the block (spec 10_state.md R30), its outputs (00_scope.md R9), the host's pending input events
(R8) and the state after reset (R48). -/
namespace Sys2Proof.Machine

/-- The tag of a message unit (R33). -/
inductive Tag where
  | data
  | note
  | gate
deriving DecidableEq, Repr

/-- A message unit: "a tagged byte", the byte as received (R33). -/
structure MsgUnit where
  tag : Tag
  val : Byte
deriving DecidableEq, Repr

/-- `buf[p]`, one assembly buffer (R32, R34). -/
structure AsmBuf where
  /-- The write index: 0 is idle, else the number of units stored; never 3 (R34). -/
  widx  : Fin CAP
  slots : Vector MsgUnit CAP
deriving DecidableEq, Repr

/-- `rec[p]`, one channel event record (R37, R38, R40). Its identifier and routes are configuration (R41). -/
structure EventRec where
  noteValue : Byte
  gateState : GateState
  gateStart : Time
  gateEnd   : Time
deriving DecidableEq, Repr

/-- The level of a gate pin: `1` = HIGH, `0` = LOW (R42). -/
inductive Level where
  | low
  | high
deriving DecidableEq, Repr

/-- An effect, the only kind of output (R9). -/
inductive Effect where
  /-- `Call(setNoteEvent, c, v)`. -/
  | callNote (c : ChanId) (v : Byte)
  /-- `Call(setGateEvent, c, d)`. -/
  | callGate (c : ChanId) (d : Duration)
  /-- `PwmWrite(r, v)`. -/
  | pwmWrite (r : PwmRoute) (v : Duty)
  /-- `GateWrite(g, l)`. -/
  | gateWrite (g : PinRoute) (l : Level)
deriving DecidableEq, Repr

/-- The argument of one `Byte(b, t)` event (R8). -/
structure StampedByte where
  byte : Byte
  time : Time
deriving DecidableEq, Repr

/-- One call of the host (R8, R135). -/
inductive Input where
  /-- The event `Reset`. -/
  | reset
  /-- One call of `feed`: the events `Byte(b_0, t_0), …` in order (R135). One `Byte` event alone is a feed of one byte. -/
  | feed (bytes : List StampedByte)
  /-- The event `Tick(t)`. -/
  | tick (t : Time)
deriving DecidableEq, Repr

/-- The output registers of one kind by route, routes rising, no entry equal to what an unlisted route reads as
(`outCanonical` in Machine/Ops.lean; log 14). -/
abbrev OutRegs (α : Type) := List (Nat × α)

/-- The state of the block (R30), its read-only configuration (R43), and three fields of the model's own (R47; log 2, 3, 4). -/
structure State where
  /-- The read-only configuration (R6, R43; log 1). -/
  cfg      : Config
  /-- `cur_valid` (R31). -/
  curValid : Bool
  /-- `cur` (R31). -/
  cur      : ChanId
  /-- `buf[0 .. NCH-1]` (R32, R44). -/
  bufs     : List AsmBuf
  /-- `rec[0 .. NCH-1]` (R37, R44). -/
  recs     : List EventRec
  /-- `pwmReg[r]` (R42). -/
  pwm      : OutRegs Duty
  /-- `pinLevel[g]` (R42). -/
  pins     : OutRegs Level
  /-- The model's own: the host's pending calls, oldest first (R8, R270; log 2). -/
  input    : List Input
  /-- The model's own: the sample `t` carried by the event being processed (R8; log 3). -/
  now      : Time
  /-- The model's own: the effects emitted so far, oldest first (R9, R78; log 4). -/
  effects  : List Effect
deriving DecidableEq, Repr

/-- The reasons for which the machine stops with a fault: none. "There is no exception/error-return surface in this core"
(R230). -/
inductive Fault where
deriving DecidableEq, Repr

/-- The reasons for which a step has no meaning. -/
inductive Refusal where
  /-- Raised by an arm of `exec` for an instruction without a meaning yet; no arm raises it now. Safe. -/
  | notModelled (mnemonic : String)
  /-- Raised by every event when the configuration is ill-formed (R7, U5: "A model refuses an ill-formed configuration").
  Safe (log 9). -/
  | illFormedConfig
  /-- Raised by a byte that completes a GATE frame when `t + d >= 2^32` (R185(d), U1: "this spec gives the step no meaning: a
  model refuses it"). Safe (log 8). -/
  | timestampOverflow
deriving DecidableEq, Repr

/-- What an event, an operation or a step answers. -/
abbrev Result := Host.Outcome State Fault Refusal

/-- A slot that no byte has written since reset. DESIGN CHOICE: `(Data, 0x00)`; the spec says "unspecified" (R48, U3; log 11). -/
def MsgUnit.unwritten : MsgUnit := { tag := .data, val := 0 }

/-- An assembly buffer after power-up and reset (R48). -/
def AsmBuf.initial : AsmBuf := { widx := 0, slots := Vector.replicate CAP MsgUnit.unwritten }

/-- An event record after reset (R48), `gs` being `RESET_GATE_STATE`. -/
def EventRec.initial (gs : GateState) : EventRec :=
  { noteValue := 0, gateState := gs, gateStart := 0, gateEnd := 0 }

/-- The state after the first `Reset` with configuration `cfg` (R48, R261). The duty registers, which reset does not write,
are 0: DESIGN CHOICE (U2; log 12). No input is pending (log 6, 17). -/
def State.resetWith (cfg : Config) : State :=
  { cfg := cfg, curValid := false, cur := 0,
    bufs := List.replicate cfg.nch AsmBuf.initial,
    recs := List.replicate cfg.nch (EventRec.initial cfg.resetGateState),
    pwm := [], pins := [], input := [], now := 0, effects := [] }

/-- The machine right after reset, with the configuration TESTCFG (95_test_vectors.md section 0): DESIGN CHOICE (log 1). -/
def State.reset : State := State.resetWith Config.testcfg

end Sys2Proof.Machine
end

