-- ==== Sys2Proof/Machine/Flags.lean ====
section
/-! DEFINITION. The flag-like state (spec 10_state.md R46), the timer compare (43_scheduler_tick.md R208) and the choice of a
row of the tick table (R200). The block has no condition codes. -/
namespace Sys2Proof.Machine

/-- "Command open": `widx > 0` (R14, R46). -/
def AsmBuf.isOpen (b : AsmBuf) : Bool := b.widx ≠ 0

/-- The compare `t >= bound`: plain unsigned (R208). -/
def reached (t bound : Time) : Bool := bound ≤ t

/-- The rows of the tick table (R200). -/
inductive GateRow where
  /-- R201: start the pulse. -/
  | start
  /-- R202: wait. -/
  | wait
  /-- R203: end the pulse. -/
  | finish
  /-- R204: hold. -/
  | hold
  /-- R205: nothing. -/
  | done
deriving DecidableEq, Repr

/-- The row of the tick table for a record and a clock sample (R200). -/
def gateRow (r : EventRec) (t : Time) : GateRow :=
  match r.gateState with
  | .notStarted => if reached t r.gateStart then .start else .wait
  | .running => if reached t r.gateEnd then .finish else .hold
  | .finished => .done

end Sys2Proof.Machine
end

