-- ==== Sys2Proof/Machine/Operands.lean ====
section
/-! DEFINITION. Operands: the command-kind table `KINDS` (spec 30_encoding.md R107) and the payloads of the two frames
(R106, R185). -/
namespace Sys2Proof.Machine

/-- The rows of `KINDS` (R107): "No other command kinds exist". -/
inductive Kind where
  | note
  | gate
deriving DecidableEq, Repr

/-- `KINDS`: the status nibble (R101, R107). -/
def Kind.nibble : Kind → BitVec 4
  | .note => 0x8
  | .gate => 0x9

/-- `KINDS`: the slot-0 tag (R107). -/
def Kind.tag : Kind → Tag
  | .note => .note
  | .gate => .gate

/-- `KINDS`: the expected frame length in units (R105, R107). -/
def Kind.len : Kind → Nat
  | .note => 2
  | .gate => 3

/-- The row of `KINDS` with this slot-0 tag (R134, "find the row of KINDS whose tag is k"). -/
def kindOfTag : Tag → Option Kind
  | .data => none
  | .note => some .note
  | .gate => some .gate

/-- The status byte of a kind and a channel (R101). -/
def statusVal (k : Kind) (c : ChanId) : Byte := k.nibble ++ c

/-- A data byte with these payload bits (R102). -/
def dataVal (d : Payload) : Byte := 0b0#1 ++ d

/-- The NOTE payload: "the whole byte, not masked by the parser" (R106). -/
def notePayload (d1 : Byte) : Byte := d1

/-- The GATE payload `((d1 & 0x7F) << 7) | (d2 & 0x7F)`, in 14 bits (R106, R185(b)). -/
def gatePayload (d1 d2 : Byte) : Duration :=
  ((d1 &&& 0x7F).setWidth 14 <<< 7) ||| (d2 &&& 0x7F).setWidth 14

/-- `CFG[p].lut[v mod CFG[p].lutSize]` (R180, R185(a)). -/
def dutyOf (e : ChannelCfg) (v : Byte) : Duty := e.lut.getD (v.toNat % e.lut.length) 0

/-- `n mod CAP` (R134, R185(c)). -/
def wrapIndex (n : Nat) : Fin CAP := Fin.ofNat CAP n

/-- The sum `t + d` when it fits `TW` bits; where it does not, there is none (R181, R185(d)). -/
def gateEndOf (t : Time) (d : Duration) : Option Time :=
  if t.toNat + d.toNat < 2 ^ 32 then some (t + d.setWidth 32) else none

end Sys2Proof.Machine
end

