-- ==== Sys2Proof/WellFormed.lean ====
section
/-! DEFINITION. Well-formed configurations (spec 00_scope.md R7). An instruction needs no check: its operands have exactly
the widths of their fields (Syntax.lean). A table entry wider than `DW` bits cannot be written down. -/
namespace Sys2Proof

/-- R7: `NCH <= 16`. -/
def Config.fewChannels (cfg : Config) : Bool := cfg.nch ≤ maxChannels

/-- R7: the identifiers are pairwise distinct. -/
def Config.distinctChannels (cfg : Config) : Bool := decide (cfg.chans.map (·.chan)).Nodup

/-- R7: every `lutSize >= 1`. -/
def Config.tablesNonempty (cfg : Config) : Bool := cfg.chans.all (fun e => !e.lut.isEmpty)

/-- R7: the configuration is well-formed. -/
def Config.wellFormed (cfg : Config) : Bool :=
  cfg.fewChannels && cfg.distinctChannels && cfg.tablesNonempty

end Sys2Proof
end

