-- ==== Sys2Proof/Machine/Ops.lean ====
section
/-! DEFINITION. The named operations: channel lookup (spec 20_memory.md R71), reads and writes of every state element,
the scheduler operations (42_scheduler_ops.md R180, R181), the completion attempt (40_framer_bytes.md R134) and the byte
events (R130 to R133). The block has no exception (60_exceptions.md R230, R234), so there is no operation that takes one. -/
namespace Sys2Proof.Machine

/-! ## Sequencing -/

/-- Run `f` on the next state, if there is one. -/
def andThen (o : Result) (f : State → Result) : Result :=
  match o with
  | .next s => f s
  | .fault r => .fault r
  | .refused r => .refused r

/-- Every rule has a well-formed configuration as its precondition: "A model refuses an ill-formed configuration" (R7, U5;
log 9). -/
def onWellFormed (s : State) (o : Result) : Result :=
  if s.cfg.wellFormed then o else .refused .illFormedConfig

/-! ## Lookup -/

/-- `lookup(c)`: the least position whose identifier is `c` (R71). -/
def lookup (cfg : Config) (c : ChanId) : Option Nat := cfg.chans.findIdx? (fun e => e.chan == c)

/-! ## Output registers -/

/-- Read an output register; `d` is what an unlisted route reads as. -/
def readOut {α : Type} (d : α) : OutRegs α → Nat → α
  | [], _ => d
  | (k, v) :: rest, r => if k = r then v else readOut d rest r

/-- Write an output register, keeping the canonical form. -/
def writeOut {α : Type} [DecidableEq α] (d : α) : OutRegs α → Nat → α → OutRegs α
  | [], r, v => if v = d then [] else [(r, v)]
  | (k, w) :: rest, r, v =>
    if k < r then (k, w) :: writeOut d rest r v
    else if k = r then (if v = d then rest else (r, v) :: rest)
    else (if v = d then (k, w) :: rest else (r, v) :: (k, w) :: rest)

/-- The canonical form: routes strictly rising, no entry equal to what an unlisted route reads as. -/
abbrev outCanonical {α : Type} [DecidableEq α] (d : α) (l : OutRegs α) : Prop :=
  (l.map (·.1)).Pairwise (· < ·) ∧ ∀ e ∈ l, e.2 ≠ d

/-- `pwmReg[r]` (R42). -/
def State.dutyAt (s : State) (r : PwmRoute) : Duty := readOut 0 s.pwm r

/-- `pwmReg[r] <- v` (R42). -/
def State.setDuty (s : State) (r : PwmRoute) (v : Duty) : State := { s with pwm := writeOut 0 s.pwm r v }

/-- `pinLevel[g]` (R42). -/
def State.levelAt (s : State) (g : PinRoute) : Level := readOut .low s.pins g

/-- `pinLevel[g] <- l` (R42). -/
def State.setLevel (s : State) (g : PinRoute) (l : Level) : State := { s with pins := writeOut .low s.pins g l }

/-! ## Buffers, records, latch, effects -/

/-- `buf[p]`; a position the configuration does not have reads as an idle buffer (log 16). -/
def State.bufAt (s : State) (p : Nat) : AsmBuf := s.bufs.getD p AsmBuf.initial

/-- `buf[p] <- b`. -/
def State.setBuf (s : State) (p : Nat) (b : AsmBuf) : State := { s with bufs := s.bufs.set p b }

/-- `rec[p]`; a position the configuration does not have reads as a finished record (log 16). -/
def State.recAt (s : State) (p : Nat) : EventRec := s.recs.getD p (EventRec.initial .finished)

/-- `rec[p] <- r`. -/
def State.setRec (s : State) (p : Nat) (r : EventRec) : State := { s with recs := s.recs.set p r }

/-- `cur_valid <- 1 ; cur <- c` (R130, R131). -/
def State.latch (s : State) (c : ChanId) : State := { s with curValid := true, cur := c }

/-- `emit e` (R12). -/
def State.emit (s : State) (e : Effect) : State := { s with effects := s.effects ++ [e] }

/-- `buf[p].slot[i] <- u`. -/
def State.storeUnit (s : State) (p : Nat) (i : Fin CAP) (u : MsgUnit) : State :=
  s.setBuf p { s.bufAt p with slots := (s.bufAt p).slots.set i u }

/-- `buf[p].widx <- n mod CAP`. -/
def State.setWidx (s : State) (p : Nat) (n : Nat) : State :=
  s.setBuf p { s.bufAt p with widx := wrapIndex n }

/-! ## The scheduler operations -/

/-- `pwmReg[r] <- v ; emit PwmWrite(r, v)` (R180). -/
def State.driveDuty (s : State) (r : PwmRoute) (v : Duty) : State := (s.setDuty r v).emit (.pwmWrite r v)

/-- `pinLevel[g] <- l ; emit GateWrite(g, l)` (R201, R203). -/
def State.drivePin (s : State) (g : PinRoute) (l : Level) : State := (s.setLevel g l).emit (.gateWrite g l)

/-- `setNoteEvent(c, v)` (R180, R183). -/
def setNoteEvent (c : ChanId) (v : Byte) (s : State) : Result :=
  match lookup s.cfg c with
  | none => .next s
  | some p =>
    .next ((s.setRec p { s.recAt p with noteValue := v }).driveDuty (s.cfg.entry p).pwm (dutyOf (s.cfg.entry p) v))

/-- `setGateEvent(c, d, t)` (R181, R183, R185(d)). -/
def setGateEvent (c : ChanId) (d : Duration) (t : Time) (s : State) : Result :=
  match lookup s.cfg c with
  | none => .next s
  | some p =>
    match gateEndOf t d with
    | none => .refused .timestampOverflow
    | some e => .next (s.setRec p { s.recAt p with gateStart := t, gateEnd := e, gateState := .notStarted })

/-! ## The parser -/

/-- Decode the payload of a complete frame of position `p` and call the scheduler (R107, R134). -/
def dispatchFrame (k : Kind) (p : Nat) (t : Time) (s : State) : Result :=
  let b := s.bufAt p
  let c := (s.cfg.entry p).chan
  match k with
  | .note => setNoteEvent c (notePayload b.slots[1].val) (s.emit (.callNote c (notePayload b.slots[1].val)))
  | .gate =>
    setGateEvent c (gatePayload b.slots[1].val b.slots[2].val) t
      (s.emit (.callGate c (gatePayload b.slots[1].val b.slots[2].val)))

/-- The kind whose frame is complete with `n` units stored, if any (R105, R134). -/
def completedKind (tag : Tag) (n : Nat) : Option Kind :=
  match kindOfTag tag with
  | some k => if n = k.len then some k else none
  | none => none

/-- `attempt_completion(p, n, t)` (R134). -/
def attemptCompletion (p n : Nat) (t : Time) (s : State) : Result :=
  match completedKind (s.bufAt p).slots[0].tag n with
  | some k => andThen (dispatchFrame k p t s) (fun s => .next (s.setWidx p 0))
  | none => .next (s.setWidx p n)

/-- A NOTE or GATE status byte (R130, R131). -/
def statusByte (k : Kind) (c : ChanId) (s : State) : Result :=
  onWellFormed s
    (match lookup s.cfg c with
    | none => .next (s.latch c)
    | some p =>
      attemptCompletion p 1 s.now ((s.latch c).storeUnit p 0 { tag := k.tag, val := statusVal k c }))

/-- A data byte (R132). -/
def dataByte (b : Byte) (s : State) : Result :=
  onWellFormed s
    (if s.curValid then
      match lookup s.cfg s.cur with
      | none => .next s
      | some p =>
        let i := (s.bufAt p).widx
        if (s.bufAt p).isOpen then
          attemptCompletion p (i.val + 1) s.now (s.storeUnit p i { tag := .data, val := b })
        else .next s
    else .next s)

/-- A reserved byte: discarded (R133). -/
def reservedByte (s : State) : Result := onWellFormed s (.next s)

/-! ## Taking the host's input -/

/-- A `feed` call of which these bytes are left; a call without bytes left is over (R135). -/
def pendingFeed (bytes : List StampedByte) (rest : List Input) : List Input :=
  match bytes with
  | [] => rest
  | b :: bs => .feed (b :: bs) :: rest

/-- The state in which an event with sample `t` is processed: the event is taken and `input` is what is pending after it. -/
def State.takeEvent (s : State) (t : Time) (input : List Input) : State := { s with input := input, now := t }

/-- The sample of the last of the first `n` bytes: the one a frame reads (R161, "The clock sample used is that of the byte
that completes the frame"). -/
def lastSample (n : Nat) (bytes : List StampedByte) (dflt : Time) : Time :=
  ((bytes.take n).getLast?.map (·.time)).getD dflt

/-- Take the first `n` bytes of the `feed` call `bytes`, the calls `rest` being pending after it (R135). -/
def State.takeBytes (s : State) (n : Nat) (bytes : List StampedByte) (rest : List Input) : State :=
  s.takeEvent (lastSample n bytes s.now) (pendingFeed (bytes.drop n) rest)

/-- The call `feed` with these bytes, all with the sample `t` (R108, `@t`). -/
def feedAt (t : Time) (bytes : List Byte) : Input := .feed (bytes.map (fun b => { byte := b, time := t }))

end Sys2Proof.Machine
end

