-- ==== Sys2Proof/Machine/Bytes.lean ====
section
/-! DEFINITION. The meanings of the five single-byte instructions (spec 40_framer_bytes.md R130 to R133). The event's `t` is
`State.now`. -/
namespace Sys2Proof.Machine

/-- `DATA` (R132). -/
def execData (d : Payload) (s : State) : Result := dataByte (dataVal d) s

/-- `ST_NOTE` (R130). -/
def execStNote (c : ChanId) (s : State) : Result := statusByte .note c s

/-- `ST_GATE` (R131). -/
def execStGate (c : ChanId) (s : State) : Result := statusByte .gate c s

/-- `RSV_AB` (R133). The ignored bits are not read. -/
def execRsvAB (_x : BitVec 5) (s : State) : Result := reservedByte s

/-- `RSV_CF` (R133). The ignored bits are not read. -/
def execRsvCF (_x : BitVec 6) (s : State) : Result := reservedByte s

end Sys2Proof.Machine
end

