-- ==== Sys2Proof/Machine/Frames.lean ====
section
/-! DEFINITION. The meanings of the two frames (spec 41_framer_commands.md R160, R161): the byte events of the frame, in order
(30_encoding.md R108). Only the byte that completes a GATE reads a clock sample, and `State.now` is that byte's. -/
namespace Sys2Proof.Machine

/-- `NOTE c, n` (R160): `Byte(0x80 | c)`, `Byte(n)`. -/
def execNote (c : ChanId) (n : Payload) (s : State) : Result :=
  andThen (statusByte .note c s) (dataByte (dataVal n))

/-- `GATE c, d` (R161): `Byte(0x90 | c)`, `Byte(d[13:7])`, `Byte(d[6:0])`. -/
def execGate (c : ChanId) (d : Duration) (s : State) : Result :=
  andThen (statusByte .gate c s) (fun s =>
    andThen (dataByte (dataVal (d.extractLsb' 7 7)) s) (dataByte (dataVal (d.extractLsb' 0 7))))

end Sys2Proof.Machine
end

