-- ==== Sys2Proof/Machine/Dispatch.lean ====
section
/-! DEFINITION. One arm per instruction. -/
namespace Sys2Proof.Machine

def exec (i : Instr) (s : State) : Host.Outcome State Fault Refusal :=
  match i with
  | .data d => Sys2Proof.Machine.execData d s
  | .stNote c => Sys2Proof.Machine.execStNote c s
  | .stGate c => Sys2Proof.Machine.execStGate c s
  | .rsvAB x => Sys2Proof.Machine.execRsvAB x s
  | .rsvCF x => Sys2Proof.Machine.execRsvCF x s
  | .note c n => Sys2Proof.Machine.execNote c n s
  | .gate c d => Sys2Proof.Machine.execGate c d s

end Sys2Proof.Machine
end

