-- ==== Sys2Proof/Machine/Events.lean ====
section
/-! DEFINITION. The two input events that have no encoding (spec 30_encoding.md R110): `Tick` (43_scheduler_tick.md R200 to
R210) and `Reset` (70_reset_and_hazards.md R260). -/
namespace Sys2Proof.Machine

/-- `Tick(t)` at one position: one row of the table (R200 to R206). -/
def tickPosition (t : Time) (s : State) (p : Nat) : State :=
  match gateRow (s.recAt p) t with
  | .start => (s.drivePin (s.cfg.entry p).pin .high).setRec p { s.recAt p with gateState := .running }
  | .finish => (s.drivePin (s.cfg.entry p).pin .low).setRec p { s.recAt p with gateState := .finished }
  | .wait => s
  | .hold => s
  | .done => s

/-- `Tick(t)`, `t` being `State.now`: every position once, in ascending order (R200, R209). -/
def execTick (s : State) : Result :=
  onWellFormed s (.next ((List.range s.cfg.nch).foldl (tickPosition s.now) s))

/-- A buffer after `Reset`: the slots are left as they are (R260). -/
def AsmBuf.onReset (b : AsmBuf) : AsmBuf := { b with widx := 0 }

/-- `pinLevel[g] <- 0` for every pin route the configuration names (R260). -/
def pinsOnReset (cfg : Config) (pins : OutRegs Level) : OutRegs Level :=
  cfg.chans.foldl (fun ps e => writeOut .low ps e.pin .low) pins

/-- `Reset` (R260). The duty registers are not written and no effect is emitted. -/
def execReset (s : State) : Result :=
  onWellFormed s (.next
    { s with
      curValid := false, cur := 0,
      bufs := s.bufs.map AsmBuf.onReset,
      recs := s.recs.map (fun _ => EventRec.initial s.cfg.resetGateState),
      pins := pinsOnReset s.cfg s.pins })

end Sys2Proof.Machine
end

