-- ==== Sys2Proof/Machine/Step.lean ====
section
/-! DEFINITION. One step: the next of the host's input events (spec 00_scope.md R8). Of a `feed` call a step runs the first
instruction (a byte, or a whole frame whose bytes stand together in the call); splitting a call anywhere changes nothing
(40_framer_bytes.md R135; log 2). With no input pending nothing happens (70_reset_and_hazards.md R270; log 6). -/
namespace Sys2Proof.Machine

def step (s : State) : Host.Outcome State Fault Refusal :=
  match s.input with
  | [] => .next s
  | .reset :: rest => execReset (s.takeEvent s.now rest)
  | .tick t :: rest => execTick (s.takeEvent t rest)
  | .feed bytes :: rest =>
    match decode (bytes.map (·.byte)) with
    | .noByte => .next (s.takeEvent s.now rest)
    | .instr i _ => exec i (s.takeBytes i.byteLen bytes rest)

/-- `s` with the instruction of a table word as the host's next call, one `feed` of exactly its bytes at the sample `s.now`. -/
def State.withFetchWord (s : State) (nbits w : Nat) : State :=
  { s with input := feedAt s.now (wordBytes nbits w) :: s.input }

end Sys2Proof.Machine
end

