-- ==== Sys2Proof/Safety.lean ====
section
/-! DEFINITION. What a state reached by a run looks like, and what the spec asks of the host, in the terms the statements use. -/
namespace Sys2Proof.Machine

/-- One buffer and one record for each configured channel (spec 10_state.md R44). -/
def State.Shape (s : State) : Prop := s.bufs.length = s.cfg.nch ∧ s.recs.length = s.cfg.nch

/-- The states the rules are stated for: a well-formed configuration (R7) and its state elements. -/
def State.Ready (s : State) : Prop := s.cfg.wellFormed = true ∧ s.Shape

/-- A buffer of the channel `c` holds a command in progress as R35 (items 5, 6), R33 and R138 say: idle, or one of `N1`, `G1`,
`G2`, with the status byte of that very channel in slot 0 and, in `G2`, a data byte in slot 1. -/
def AsmBuf.Framed (c : ChanId) (b : AsmBuf) : Prop :=
  b.widx = 0 ∨
  (b.widx = 1 ∧ b.slots[0] = { tag := .note, val := statusVal .note c }) ∨
  (b.widx = 1 ∧ b.slots[0] = { tag := .gate, val := statusVal .gate c }) ∨
  (b.widx = 2 ∧ b.slots[0] = { tag := .gate, val := statusVal .gate c } ∧
    b.slots[1].tag = .data ∧ isDataByte b.slots[1].val = true)

/-- The state invariant. -/
structure State.Inv (s : State) : Prop where
  /-- R44. -/
  shape : s.Shape
  /-- R35 items 5 and 6, R138. -/
  framed : ∀ p < s.cfg.nch, (s.bufAt p).Framed (s.cfg.entry p).chan
  /-- R46: a command is open only after a status byte since reset. -/
  latched : s.curValid = false → ∀ p < s.cfg.nch, (s.bufAt p).widx = 0
  /-- R39: "Under the no-overflow premise … the inequality holds in every state". -/
  ordered : ∀ p < s.cfg.nch, (s.recAt p).gateStart ≤ (s.recAt p).gateEnd
  /-- The duty registers are listed canonically (log 14). -/
  duties : outCanonical 0 s.pwm
  /-- The pins are listed canonically (log 14). -/
  levels : outCanonical .low s.pins
  /-- Only duty registers the configuration names are ever written (R30, R42). -/
  dutyRoutes : ∀ e ∈ s.pwm, ∃ p < s.cfg.nch, (s.cfg.entry p).pwm = e.1
  /-- Only pins the configuration names are ever driven (R30, R42). -/
  pinRoutes : ∀ e ∈ s.pins, ∃ p < s.cfg.nch, (s.cfg.entry p).pin = e.1

/-- No two configured channels share a pin route. -/
def State.DistinctPins (s : State) : Prop :=
  ∀ p < s.cfg.nch, ∀ q < s.cfg.nch, (s.cfg.entry p).pin = (s.cfg.entry q).pin → p = q

/-- Each channel's pin is HIGH while its pulse runs and LOW when it is over (R37, R210). -/
def State.PinsFollow (s : State) : Prop :=
  ∀ p < s.cfg.nch,
    ((s.recAt p).gateState = .running → s.levelAt (s.cfg.entry p).pin = .high) ∧
    ((s.recAt p).gateState = .finished → s.levelAt (s.cfg.entry p).pin = .low)

/-- The host's duty on a clock sample: `t + 16383 < 2^TW` (R185(d), R271). -/
def timely (t : Time) : Prop := t.toNat + 16383 < 2 ^ 32

/-- The duty holds at every `Byte` event of a call. -/
def Input.Timely : Input → Prop
  | .reset => True
  | .feed bytes => ∀ b ∈ bytes, timely b.time
  | .tick _ => True

/-- Two buffers agree on what a rule can still read: the write index and the units of the command in progress (R36). -/
def AsmBuf.AgreesOnRead (a b : AsmBuf) : Prop := a.widx = b.widx ∧ ∀ i : Fin CAP, i < a.widx → a.slots[i] = b.slots[i]

/-- Two records agree on what a rule can still read: the gate state, the end of a window not over yet, and the start of one
not begun yet (R38, R205; U11). No rule reads `noteValue` (R40). -/
def EventRec.AgreesOnRead (a b : EventRec) : Prop :=
  a.gateState = b.gateState ∧ (a.gateState ≠ .finished → a.gateEnd = b.gateEnd) ∧
  (a.gateState = .notStarted → a.gateStart = b.gateStart)

/-- Two states agree on everything a rule can still read, and on all outputs so far. They may differ in stale and unwritten
slots (U3), in `cur` while `cur_valid = 0` (U4), in the duty registers (U2), in `noteValue` (R40) and in bounds that are not
read (U11). -/
structure State.AgreesOnRead (a b : State) : Prop where
  cfg : a.cfg = b.cfg
  curValid : a.curValid = b.curValid
  cur : a.curValid = true → a.cur = b.cur
  bufsLength : a.bufs.length = b.bufs.length
  bufs : ∀ p, (a.bufAt p).AgreesOnRead (b.bufAt p)
  recsLength : a.recs.length = b.recs.length
  recs : ∀ p, (a.recAt p).AgreesOnRead (b.recAt p)
  pins : a.pins = b.pins
  input : a.input = b.input
  now : a.now = b.now
  effects : a.effects = b.effects

end Sys2Proof.Machine
end

