-- ==== Sys2Proof/Certificates/Slice0/Obligations.lean ====
section
/-! DEFINITION. The statements for the provers. "R<n>" is a rule of spec/. -/

open Sys2Proof Sys2Proof.Machine

/-! ## The wire format -/

/-- R104, R105: decoding the bytes of an instruction, whatever follows them in the call, gives it back with what follows. The
one exception is a lone status byte followed by the data bytes that make it a frame. -/
def Obligations.DecodeOfEncodeIsTheInstruction : Prop :=
  ∀ (i : Instr) (rest : List Byte),
    (∀ c b bs, i = .stNote c → rest = b :: bs → isDataByte b = false) →
    (∀ c b b' bs, i = .stGate c → rest = b :: b' :: bs → ¬(isDataByte b = true ∧ isDataByte b' = true)) →
    decode (encode i ++ rest) = .instr i rest

/-- R100, R104: whatever the decoder reads, it loses no bit of the bytes. -/
def Obligations.DecodeLosesNoBit : Prop :=
  ∀ (bytes rest : List Byte) (i : Instr), decode bytes = .instr i rest → encode i ++ rest = bytes

/-- R100, R101, R102, R103: the class of a byte is its high nibble, the channel of a status byte its low nibble, the payload of
a data byte its bits 6:0. -/
def Obligations.ByteClassIsTheHighNibble : Prop :=
  ∀ b : Byte, decode [b] = .instr
    (if b.toNat ≤ 0x7F then .data (BitVec.ofNat 7 b.toNat)
     else if b.toNat ≤ 0x8F then .stNote (BitVec.ofNat 4 (b.toNat % 16))
     else if b.toNat ≤ 0x9F then .stGate (BitVec.ofNat 4 (b.toNat % 16))
     else if b.toNat ≤ 0xBF then .rsvAB (BitVec.ofNat 5 (b.toNat % 32))
     else .rsvCF (BitVec.ofNat 6 (b.toNat % 64))) []

/-- Words written out bit by bit from R101 to R104. -/
def Obligations.WordsOfEachRowDecode : Prop :=
  decodeTableWord 8 0b01100100 = some (.data 100) ∧
  decodeTableWord 8 0b10000101 = some (.stNote 5) ∧
  decodeTableWord 8 0b10011111 = some (.stGate 15) ∧
  decodeTableWord 8 0b10100101 = some (.rsvAB 5) ∧
  decodeTableWord 8 0b11111111 = some (.rsvCF 63) ∧
  decodeTableWord 16 0b1000000000111100 = some (.note 0 60) ∧
  decodeTableWord 24 0b100100010000000101111111 = some (.gate 1 255)

/-- R106, R111: the GATE payload is the two low-seven-bit values, high part first; on data bytes the masks change nothing. -/
def Obligations.GatePayloadIsHighSevenThenLowSeven : Prop :=
  ∀ h l : Byte,
    (gatePayload h l).toNat = (h.toNat % 128) * 128 + l.toNat % 128 ∧
    (isDataByte h = true → isDataByte l = true → (gatePayload h l).toNat = h.toNat * 128 + l.toNat)

/-! ## A step runs the decoded instruction -/

/-- A step takes the first instruction of the host's next `feed` call and runs it: its bytes are taken from the call, and the
clock sample is that of its last byte (R8, R161). The form of the call is the model's choice (log 2). -/
def Obligations.StepRunsTheDecodedInstruction : Prop :=
  ∀ (s : State) (bytes : List StampedByte) (rest : List Input) (i : Instr) (r : List Byte),
    s.input = .feed bytes :: rest → decode (bytes.map (·.byte)) = .instr i r →
    ∃ b, bytes[i.byteLen - 1]? = some b ∧ (bytes.drop i.byteLen).map (·.byte) = r ∧
      step s = exec i { s with
        now := b.time,
        input := if bytes.drop i.byteLen = [] then rest else .feed (bytes.drop i.byteLen) :: rest }

/-- The other calls of the host: `Reset`, `Tick(t)`, an empty `feed`, and none (R8, R135, R270; log 2, 6). -/
def Obligations.StepTakesTheOtherEvents : Prop :=
  ∀ (s : State) (rest : List Input),
    (s.input = .reset :: rest → step s = execReset { s with input := rest }) ∧
    (∀ t, s.input = .tick t :: rest → step s = execTick { s with input := rest, now := t }) ∧
    (s.input = .feed [] :: rest → step s = .next { s with input := rest }) ∧
    (s.input = [] → step s = .next s)

/-- The word of an opcode-table row, put where the step takes its next instruction, is run by the very next step (log 2, 5). -/
def Obligations.StepRunsTheFetchWord : Prop :=
  ∀ (s : State) (nbits w : Nat) (i : Instr),
    decode (wordBytes nbits w) = .instr i [] → step (s.withFetchWord nbits w) = exec i s

/-! ## The byte instructions -/

/-- R130: `ST_NOTE` in every state, with its frame. -/
def Obligations.StNoteOpensANote : Prop :=
  ∀ (c : ChanId) (s : State), s.cfg.wellFormed = true →
    (lookup s.cfg c = none → exec (.stNote c) s = .next { s with curValid := true, cur := c }) ∧
    (∀ p, lookup s.cfg c = some p →
      exec (.stNote c) s = .next { s with
        curValid := true, cur := c,
        bufs := s.bufs.set p
          { widx := 1, slots := (s.bufAt p).slots.set 0 { tag := .note, val := 0x8#4 ++ c } } })

/-- R131: `ST_GATE` in every state, with its frame. -/
def Obligations.StGateOpensAGate : Prop :=
  ∀ (c : ChanId) (s : State), s.cfg.wellFormed = true →
    (lookup s.cfg c = none → exec (.stGate c) s = .next { s with curValid := true, cur := c }) ∧
    (∀ p, lookup s.cfg c = some p →
      exec (.stGate c) s = .next { s with
        curValid := true, cur := c,
        bufs := s.bufs.set p
          { widx := 1, slots := (s.bufAt p).slots.set 0 { tag := .gate, val := 0x9#4 ++ c } } })

/-- R132: the three ways in which a data byte is stray, each changing nothing. -/
def Obligations.StrayDataByteChangesNothing : Prop :=
  ∀ (d : Payload) (s : State), s.cfg.wellFormed = true →
    (s.curValid = false ∨ lookup s.cfg s.cur = none ∨
      ∃ p, lookup s.cfg s.cur = some p ∧ (s.bufAt p).widx = 0) →
    exec (.data d) s = .next s

/-- R132, R134: a data byte of an open command that does not complete it is stored, and the write index moves on. -/
def Obligations.DataByteIsStoredInAnOpenCommand : Prop :=
  ∀ (d : Payload) (s : State) (p : Nat), s.Ready → s.curValid = true → lookup s.cfg s.cur = some p →
    (s.bufAt p).widx ≠ 0 →
    ¬((s.bufAt p).widx = 1 ∧ (s.bufAt p).slots[0].tag = .note) →
    ¬((s.bufAt p).widx = 2 ∧ (s.bufAt p).slots[0].tag = .gate) →
    exec (.data d) s = .next { s with
      bufs := s.bufs.set p
        { widx := Fin.ofNat 3 ((s.bufAt p).widx.val + 1),
          slots := (s.bufAt p).slots.set (s.bufAt p).widx { tag := .data, val := 0b0#1 ++ d } } }

/-- R132, R134, R180: the data byte of a NOTE completes it. The duty value is an entry of the channel's table. -/
def Obligations.DataByteCompletesANote : Prop :=
  ∀ (d : Payload) (s : State) (p : Nat), s.Ready → s.curValid = true → lookup s.cfg s.cur = some p →
    (s.bufAt p).widx = 1 → (s.bufAt p).slots[0].tag = .note →
    ∃ duty, (s.cfg.entry p).lut[d.toNat % (s.cfg.entry p).lut.length]? = some duty ∧
      exec (.data d) s = .next { s with
        bufs := s.bufs.set p
          { widx := 0, slots := (s.bufAt p).slots.set 1 { tag := .data, val := 0b0#1 ++ d } },
        recs := s.recs.set p { s.recAt p with noteValue := 0b0#1 ++ d },
        pwm := writeOut 0 s.pwm (s.cfg.entry p).pwm duty,
        effects := s.effects ++ [.callNote s.cur (0b0#1 ++ d), .pwmWrite (s.cfg.entry p).pwm duty] }

/-- R132, R134, R181, R185(d): the second data byte of a GATE completes it when the window fits a timestamp, and is refused when it
does not (where the refusal is raised: log 8). -/
def Obligations.DataByteCompletesAGate : Prop :=
  ∀ (d : Payload) (s : State) (p : Nat), s.Ready → s.curValid = true → lookup s.cfg s.cur = some p →
    (s.bufAt p).widx = 2 → (s.bufAt p).slots[0].tag = .gate →
    ∀ dur : Duration, dur.toNat = ((s.bufAt p).slots[1].val.toNat % 128) * 128 + d.toNat →
    (s.now.toNat + dur.toNat < 2 ^ 32 →
      exec (.data d) s = .next { s with
        bufs := s.bufs.set p
          { widx := 0, slots := (s.bufAt p).slots.set 2 { tag := .data, val := 0b0#1 ++ d } },
        recs := s.recs.set p { s.recAt p with
          gateStart := s.now, gateEnd := BitVec.ofNat 32 (s.now.toNat + dur.toNat), gateState := .notStarted },
        effects := s.effects ++ [.callGate s.cur dur] }) ∧
    (2 ^ 32 ≤ s.now.toNat + dur.toNat → exec (.data d) s = .refused .timestampOverflow)

/-- R133: a reserved byte of either row changes nothing and emits nothing. -/
def Obligations.ReservedByteChangesNothing : Prop :=
  ∀ (x : BitVec 5) (y : BitVec 6) (s : State), s.cfg.wellFormed = true →
    exec (.rsvAB x) s = .next s ∧ exec (.rsvCF y) s = .next s

/-- R138: the transition table of one position, and bytes that do not reach the position leave its buffer alone. -/
def Obligations.BufferFollowsTheTransitionTable : Prop :=
  ∀ (s : State) (p : Nat) (c : ChanId), s.Ready → timely s.now → lookup s.cfg c = some p →
    (∃ t, exec (.stNote c) s = .next t ∧ (t.bufAt p).widx = 1 ∧ (t.bufAt p).slots[0].tag = .note ∧
      t.effects = s.effects) ∧
    (∃ t, exec (.stGate c) s = .next t ∧ (t.bufAt p).widx = 1 ∧ (t.bufAt p).slots[0].tag = .gate ∧
      t.effects = s.effects) ∧
    (∀ d, s.curValid = true → s.cur = c → ∃ t, exec (.data d) s = .next t ∧
      ((s.bufAt p).widx = 0 → (t.bufAt p).widx = 0 ∧ t.effects = s.effects) ∧
      ((s.bufAt p).widx = 1 → (s.bufAt p).slots[0].tag = .note →
        (t.bufAt p).widx = 0 ∧ .callNote c (0b0#1 ++ d) ∈ t.effects.drop s.effects.length) ∧
      ((s.bufAt p).widx = 1 → (s.bufAt p).slots[0].tag = .gate →
        (t.bufAt p).widx = 2 ∧ (t.bufAt p).slots[0].tag = .gate ∧ t.effects = s.effects) ∧
      ((s.bufAt p).widx = 2 → (s.bufAt p).slots[0].tag = .gate →
        (t.bufAt p).widx = 0 ∧ ∃ dur, t.effects = s.effects ++ [.callGate c dur])) ∧
    (∀ x y, exec (.rsvAB x) s = .next s ∧ exec (.rsvCF y) s = .next s) ∧
    (∀ c' d, c' ≠ c →
      (∃ t, exec (.stNote c') s = .next t ∧ t.bufAt p = s.bufAt p) ∧
      (∃ t, exec (.stGate c') s = .next t ∧ t.bufAt p = s.bufAt p) ∧
      (¬(s.curValid = true ∧ s.cur = c) → ∃ t, exec (.data d) s = .next t ∧ t.bufAt p = s.bufAt p))

/-! ## The frames -/

/-- R160: a whole NOTE frame, in every state, with its frame. -/
def Obligations.NoteFrameSetsTheNote : Prop :=
  ∀ (c : ChanId) (n : Payload) (s : State), s.Ready →
    (lookup s.cfg c = none → exec (.note c n) s = .next { s with curValid := true, cur := c }) ∧
    (∀ p, lookup s.cfg c = some p →
      ∃ duty, (s.cfg.entry p).lut[n.toNat % (s.cfg.entry p).lut.length]? = some duty ∧
        exec (.note c n) s = .next { s with
          curValid := true, cur := c,
          bufs := s.bufs.set p
            { widx := 0,
              slots := ((s.bufAt p).slots.set 0 { tag := .note, val := 0x8#4 ++ c }).set 1
                { tag := .data, val := 0b0#1 ++ n } },
          recs := s.recs.set p { s.recAt p with noteValue := 0b0#1 ++ n },
          pwm := writeOut 0 s.pwm (s.cfg.entry p).pwm duty,
          effects := s.effects ++ [.callNote c (0b0#1 ++ n), .pwmWrite (s.cfg.entry p).pwm duty] })

/-- R161, R185(d): a whole GATE frame, in every state, with its frame; it is refused when the window does not fit (where the
refusal is raised: log 8). -/
def Obligations.GateFrameArmsThePulse : Prop :=
  ∀ (c : ChanId) (d : Duration) (s : State), s.Ready →
    (lookup s.cfg c = none → exec (.gate c d) s = .next { s with curValid := true, cur := c }) ∧
    (∀ p, lookup s.cfg c = some p →
      (s.now.toNat + d.toNat < 2 ^ 32 →
        exec (.gate c d) s = .next { s with
          curValid := true, cur := c,
          bufs := s.bufs.set p
            { widx := 0,
              slots := (((s.bufAt p).slots.set 0 { tag := .gate, val := 0x9#4 ++ c }).set 1
                { tag := .data, val := 0b0#1 ++ d.extractLsb' 7 7 }).set 2
                { tag := .data, val := 0b0#1 ++ d.extractLsb' 0 7 } },
          recs := s.recs.set p { s.recAt p with
            gateStart := s.now, gateEnd := BitVec.ofNat 32 (s.now.toNat + d.toNat), gateState := .notStarted },
          effects := s.effects ++ [.callGate c d] }) ∧
      (2 ^ 32 ≤ s.now.toNat + d.toNat → exec (.gate c d) s = .refused .timestampOverflow))

/-- R161: the window of a GATE on the wire, each byte with its own sample, starts at the sample of the third byte. That ONE step
takes the three bytes of the call is the model's choice (log 2; R77 makes each byte a step). -/
def Obligations.GateFrameReadsItsLastSample : Prop :=
  ∀ (s : State) (c : ChanId) (d : Duration) (t0 t1 t2 : Time) (rest : List Input) (p : Nat),
    s.Ready → lookup s.cfg c = some p → t2.toNat + d.toNat < 2 ^ 32 →
    s.input = .feed [⟨BitVec.ofNat 8 (0x90 + c.toNat), t0⟩, ⟨BitVec.ofNat 8 (d.toNat / 128), t1⟩,
      ⟨BitVec.ofNat 8 (d.toNat % 128), t2⟩] :: rest →
    ∃ t, step s = .next t ∧ t.input = rest ∧
      (t.recAt p).gateStart = t2 ∧ (t.recAt p).gateEnd.toNat = t2.toNat + d.toNat ∧
      (t.recAt p).gateState = .notStarted ∧ t.pins = s.pins ∧ t.effects = s.effects ++ [.callGate c d]

/-- R162: a status byte for the same channel aborts the open command, be it a NOTE, a GATE, or a GATE with one data byte, and
be the new command a NOTE or a GATE. The aborted command makes no call: the run ends in the very state the second frame alone
leads to, with the effects of that frame alone. -/
def Obligations.InterruptedCommandLeavesNoTrace : Prop :=
  ∀ (c : ChanId) (d : Duration) (x n : Payload) (s : State) (p : Nat), s.Ready → lookup s.cfg c = some p →
    (∃ t r v, exec (.note c n) s = .next t ∧ t.effects = s.effects ++ [.callNote c (0b0#1 ++ n), .pwmWrite r v] ∧
      andThen (exec (.stNote c) s) (exec (.note c n)) = .next t ∧
      andThen (exec (.stGate c) s) (exec (.note c n)) = .next t ∧
      andThen (andThen (exec (.stGate c) s) (exec (.data x))) (exec (.note c n)) = .next t) ∧
    (s.now.toNat + d.toNat < 2 ^ 32 →
      ∃ t, exec (.gate c d) s = .next t ∧ t.effects = s.effects ++ [.callGate c d] ∧
        andThen (exec (.stNote c) s) (exec (.gate c d)) = .next t ∧
        andThen (exec (.stGate c) s) (exec (.gate c d)) = .next t ∧
        andThen (andThen (exec (.stGate c) s) (exec (.data x))) (exec (.gate c d)) = .next t)

/-- R163: `0x80|a, 0x90|b, x, y`: the data bytes go to the latched channel `b`, and the NOTE on `a` stays open and makes no
call. -/
def Obligations.DataBytesGoToTheLatchedChannel : Prop :=
  ∀ (a b : ChanId) (x y : Payload) (s : State) (p q : Nat),
    s.Ready → timely s.now → a ≠ b → lookup s.cfg a = some p → lookup s.cfg b = some q →
    ∃ t, andThen (andThen (andThen (exec (.stNote a) s) (exec (.stGate b))) (exec (.data x))) (exec (.data y)) = .next t ∧
      t.effects = s.effects ++ [.callGate b (x ++ y)] ∧
      (t.bufAt p).widx = 1 ∧ (t.bufAt p).slots[0] = { tag := .note, val := 0x8#4 ++ a } ∧
      t.recAt p = s.recAt p ∧ (t.bufAt q).widx = 0 ∧ (t.recAt q).gateState = .notStarted

/-- R164: a status byte for an unconfigured channel in the middle of a GATE takes the data bytes away: no call, and the GATE
stays open with two units. -/
def Obligations.UnconfiguredStatusByteTakesTheDataAway : Prop :=
  ∀ (a u : ChanId) (h x l : Payload) (s : State) (p : Nat),
    s.Ready → lookup s.cfg a = some p → lookup s.cfg u = none →
    andThen (andThen (andThen (andThen (exec (.stGate a) s) (exec (.data h))) (exec (.stNote u))) (exec (.data x)))
      (exec (.data l)) =
    .next { s with
      curValid := true, cur := u,
      bufs := s.bufs.set p
        { widx := 2,
          slots := ((s.bufAt p).slots.set 0 { tag := .gate, val := 0x9#4 ++ a }).set 1
            { tag := .data, val := 0b0#1 ++ h } } }

/-- R72, R183: whatever is addressed at an unconfigured channel changes at most the latch. -/
def Obligations.UnknownChannelIsInert : Prop :=
  ∀ (c : ChanId) (n x : Payload) (d : Duration) (v : Byte) (t : Time) (s : State),
    s.cfg.wellFormed = true → lookup s.cfg c = none →
    setNoteEvent c v s = .next s ∧ setGateEvent c d t s = .next s ∧
    exec (.stNote c) s = .next { s with curValid := true, cur := c } ∧
    exec (.stGate c) s = .next { s with curValid := true, cur := c } ∧
    exec (.note c n) s = .next { s with curValid := true, cur := c } ∧
    exec (.gate c d) s = .next { s with curValid := true, cur := c } ∧
    (s.cur = c → exec (.data x) s = .next s)

/-! ## The scheduler -/

/-- R71: `lookup` answers the least position with the identifier, and none when there is no such position; in a well-formed
configuration it finds every position by its identifier. -/
def Obligations.LookupIsTheLeastPosition : Prop :=
  ∀ (cfg : Config) (c : ChanId),
    (∀ p, lookup cfg c = some p →
      p < cfg.nch ∧ (cfg.entry p).chan = c ∧ ∀ q < cfg.nch, (cfg.entry q).chan = c → p ≤ q) ∧
    (lookup cfg c = none → ∀ p < cfg.nch, (cfg.entry p).chan ≠ c) ∧
    (cfg.wellFormed = true → ∀ p < cfg.nch, (cfg.entry p).chan = c → lookup cfg c = some p)

/-- R180, R183: `setNoteEvent` for every 8-bit value: the whole next state; the table index wraps and never leaves the table. -/
def Obligations.SetNoteEventWritesTheDuty : Prop :=
  ∀ (c : ChanId) (v : Byte) (s : State), s.cfg.wellFormed = true →
    (lookup s.cfg c = none → setNoteEvent c v s = .next s) ∧
    (∀ p, lookup s.cfg c = some p →
      ∃ duty, (s.cfg.entry p).lut[v.toNat % (s.cfg.entry p).lut.length]? = some duty ∧
        setNoteEvent c v s = .next { s with
          recs := s.recs.set p { s.recAt p with noteValue := v },
          pwm := writeOut 0 s.pwm (s.cfg.entry p).pwm duty,
          effects := s.effects ++ [.pwmWrite (s.cfg.entry p).pwm duty] })

/-- R181, R183, R185(d): `setGateEvent` for every operand: the whole next state, or the refusal when the sum does not fit. That
the refusal is raised here, and that the operation itself does not check the configuration, so that this holds of ill-formed
ones too, are the model's choices (log 8, 9). -/
def Obligations.SetGateEventArmsTheWindow : Prop :=
  ∀ (c : ChanId) (d : Duration) (t : Time) (s : State),
    (lookup s.cfg c = none → setGateEvent c d t s = .next s) ∧
    (∀ p, lookup s.cfg c = some p →
      (t.toNat + d.toNat < 2 ^ 32 →
        setGateEvent c d t s = .next { s with
          recs := s.recs.set p { s.recAt p with
            gateStart := t, gateEnd := BitVec.ofNat 32 (t.toNat + d.toNat), gateState := .notStarted } }) ∧
      (2 ^ 32 ≤ t.toNat + d.toNat → setGateEvent c d t s = .refused .timestampOverflow))

/-- R42: after a NOTE the duty register of the channel's route holds the value of the `PwmWrite`, and every other duty
register and every pin holds what it held. -/
def Obligations.DutyRegisterHoldsTheLastWrite : Prop :=
  ∀ (c : ChanId) (n : Payload) (s : State) (p : Nat), s.Inv → s.cfg.wellFormed = true → lookup s.cfg c = some p →
    ∃ t duty, exec (.note c n) s = .next t ∧
      t.effects = s.effects ++ [.callNote c (0b0#1 ++ n), .pwmWrite (s.cfg.entry p).pwm duty] ∧
      (∀ r, t.dutyAt r = if r = (s.cfg.entry p).pwm then duty else s.dutyAt r) ∧
      (∀ g, t.levelAt g = s.levelAt g)

/-! ## Tick -/

/-- R200 to R205, R209: `Tick` applies exactly one row of the table to every position, writes nothing else, and emits the
`GateWrite`s in ascending order of position. -/
def Obligations.TickAppliesTheTransitionTable : Prop :=
  ∀ s : State, s.Ready → ∃ t, execTick s = .next t ∧
    (∀ p < s.cfg.nch, t.recAt p = { s.recAt p with
      gateState := match (s.recAt p).gateState with
        | .notStarted => if (s.recAt p).gateStart.toNat ≤ s.now.toNat then .running else .notStarted
        | .running => if (s.recAt p).gateEnd.toNat ≤ s.now.toNat then .finished else .running
        | .finished => .finished }) ∧
    t.effects = s.effects ++ (List.range s.cfg.nch).flatMap (fun p =>
      match (s.recAt p).gateState with
      | .notStarted =>
        if (s.recAt p).gateStart.toNat ≤ s.now.toNat then [.gateWrite (s.cfg.entry p).pin .high] else []
      | .running =>
        if (s.recAt p).gateEnd.toNat ≤ s.now.toNat then [.gateWrite (s.cfg.entry p).pin .low] else []
      | .finished => []) ∧
    t = { s with recs := t.recs, pins := t.pins, effects := t.effects } ∧ t.recs.length = s.recs.length

/-- R201, R203, R209, R42: the level of every pin after a `Tick`: that of the last `GateWrite` to it in the `Tick`'s effects,
else what it was. -/
def Obligations.TickDrivesThePins : Prop :=
  ∀ s t : State, s.Inv → execTick s = .next t → ∃ new, t.effects = s.effects ++ new ∧
    ∀ g, t.levelAt g =
      (new.foldl (fun l e => match e with
        | .gateWrite g' l' => if g' = g then l' else l
        | .pwmWrite _ _ => l
        | .callNote _ _ => l
        | .callGate _ _ => l) (s.levelAt g))

/-- R206, R266: a zero-length gate needs two `Tick`s: the first leaves the channel `Running` with its pin driven HIGH, the
second `Finished` with its pin driven LOW; `Running` is never skipped. -/
def Obligations.ZeroLengthGateTakesTwoTicks : Prop :=
  ∀ (c : ChanId) (s : State) (a t1 t2 : Time) (p : Nat), s.Ready → lookup s.cfg c = some p → a ≤ t1 → t1 ≤ t2 →
    ∃ s1 s2 s3, setGateEvent c 0 a s = .next s1 ∧
      execTick { s1 with now := t1 } = .next s2 ∧ (s2.recAt p).gateState = .running ∧
      .gateWrite (s.cfg.entry p).pin .high ∈ s2.effects.drop s1.effects.length ∧
      execTick { s2 with now := t2 } = .next s3 ∧ (s3.recAt p).gateState = .finished ∧
      .gateWrite (s.cfg.entry p).pin .low ∈ s3.effects.drop s2.effects.length

/-- R184: arming a channel whose pulse is running restarts it: the pin is not driven by the arm, the next `Tick` writes HIGH
again, and the channel finishes only at a later `Tick` that reaches the NEW end. -/
def Obligations.RearmingPreemptsTheRunningPulse : Prop :=
  ∀ (c : ChanId) (d : Duration) (s : State) (a t1 t2 : Time) (p : Nat),
    s.Ready → lookup s.cfg c = some p → a.toNat + d.toNat < 2 ^ 32 → a ≤ t1 → (s.recAt p).gateState = .running →
    ∃ s1 s2 s3, setGateEvent c d a s = .next s1 ∧ s1.pins = s.pins ∧ (s1.recAt p).gateState = .notStarted ∧
      execTick { s1 with now := t1 } = .next s2 ∧ (s2.recAt p).gateState = .running ∧
      .gateWrite (s.cfg.entry p).pin .high ∈ s2.effects.drop s1.effects.length ∧
      execTick { s2 with now := t2 } = .next s3 ∧
      (s3.recAt p).gateState = (if a.toNat + d.toNat ≤ t2.toNat then .finished else .running)

/-- R81: a `Tick` that reaches no bound changes nothing. -/
def Obligations.TickBeforeEveryBoundChangesNothing : Prop :=
  ∀ s : State, s.cfg.wellFormed = true →
    (∀ p < s.cfg.nch, (s.recAt p).gateState = .finished ∨
      ((s.recAt p).gateState = .notStarted ∧ s.now < (s.recAt p).gateStart) ∨
      ((s.recAt p).gateState = .running ∧ s.now < (s.recAt p).gateEnd)) →
    execTick s = .next s

/-! ## Reset -/

/-- R260: `Reset`, in every state. -/
def Obligations.ResetPutsTheBlockInItsInitialState : Prop :=
  ∀ s : State, s.Inv → s.cfg.wellFormed = true → ∃ t, execReset s = .next t ∧
    t.curValid = false ∧ t.cur = 0 ∧
    (∀ p < s.cfg.nch, (t.bufAt p).widx = 0 ∧ (t.bufAt p).slots = (s.bufAt p).slots) ∧
    (∀ p < s.cfg.nch, t.recAt p =
      { noteValue := 0, gateState := s.cfg.resetGateState, gateStart := 0, gateEnd := 0 }) ∧
    (∀ p < s.cfg.nch, t.levelAt (s.cfg.entry p).pin = .low) ∧ t.pwm = s.pwm ∧
    t = { s with curValid := t.curValid, cur := t.cur, bufs := t.bufs, recs := t.recs, pins := t.pins }

/-- R48: the values after reset that the spec gives, for every configuration; and `State.reset` is such a state, with
`RESET_GATE_STATE = Finished` and no effect emitted. -/
def Obligations.ResetStateHasTheSpecsValues : Prop :=
  (∀ cfg : Config,
    (State.resetWith cfg).curValid = false ∧ (State.resetWith cfg).cur = 0 ∧
    (∀ p < cfg.nch, ((State.resetWith cfg).bufAt p).widx = 0) ∧
    (∀ p < cfg.nch, ((State.resetWith cfg).recAt p).noteValue = 0 ∧
      ((State.resetWith cfg).recAt p).gateState = cfg.resetGateState ∧
      ((State.resetWith cfg).recAt p).gateStart = 0 ∧ ((State.resetWith cfg).recAt p).gateEnd = 0) ∧
    (∀ g, (State.resetWith cfg).levelAt g = .low)) ∧
  State.reset.cfg.resetGateState = .finished ∧ State.reset = State.resetWith State.reset.cfg ∧
  State.reset.effects = []

/-- R260, R261: from every state of the invariant, `Reset` leads to the state after reset, up to what no rule reads: the values
the model chose for slots and duty registers (log 11, 12) cannot be told from any others. -/
def Obligations.ResetEventReachesTheResetState : Prop :=
  ∀ s t : State, s.Inv → execReset s = .next t →
    t.AgreesOnRead { State.resetWith s.cfg with input := s.input, now := s.now, effects := s.effects }

/-! ## Whole-machine rules -/

/-- The invariant holds after reset, for every configuration. -/
def Obligations.InvariantHoldsAfterReset : Prop := ∀ cfg : Config, (State.resetWith cfg).Inv

/-- R35 items 5 and 6, R39, R44, R46 and the canonical form of the output registers (log 14): every step keeps the invariant. -/
def Obligations.EveryStepKeepsTheInvariant : Prop := ∀ s s' : State, s.Inv → step s = .next s' → s'.Inv

/-- The base case of `EveryStepKeepsThePinsWithTheGates`: where `RESET_GATE_STATE` is not `Running`, after reset no channel runs,
every pin is LOW (R48), and so the pins agree with the gate states; whether or not channels share pins. -/
def Obligations.PinsFollowAfterReset : Prop :=
  ∀ cfg : Config, cfg.resetGateState ≠ .running →
    (∀ p < cfg.nch, ((State.resetWith cfg).recAt p).gateState ≠ .running) ∧
    (∀ g, (State.resetWith cfg).levelAt g = .low) ∧ (State.resetWith cfg).PinsFollow

/-- R37, R210: on a configuration without shared pins, a channel's pin is HIGH while its pulse runs and LOW once it is over, and
every step keeps it so. -/
def Obligations.EveryStepKeepsThePinsWithTheGates : Prop :=
  ∀ s s' : State, s.Inv → s.DistinctPins → s.cfg.resetGateState ≠ .running → s.PinsFollow →
    step s = .next s' → s'.PinsFollow

/-- R6, R43, R44: no step changes the configuration or the number of state elements. -/
def Obligations.ConfigurationNeverChanges : Prop :=
  ∀ s s' : State, step s = .next s' →
    s'.cfg = s.cfg ∧ s'.bufs.length = s.bufs.length ∧ s'.recs.length = s.recs.length

/-- R46, R260: `Reset` is the only way `cur_valid` returns to 0. -/
def Obligations.OnlyResetClearsTheLatch : Prop :=
  ∀ s s' : State, step s = .next s' → s.curValid = true → s'.curValid = false → ∃ rest, s.input = .reset :: rest

/-- R207: the only transitions of a gate state: to `NotStarted` by a byte that calls `setGateEvent` for the channel, along the
cycle by a `Tick`, to `RESET_GATE_STATE` by `Reset`. -/
def Obligations.GateStateMovesOnlyAroundTheCycle : Prop :=
  ∀ (s s' : State) (p : Nat), s.Ready → p < s.cfg.nch → step s = .next s' →
    (s'.recAt p).gateState ≠ (s.recAt p).gateState →
    (∃ bytes rest c d, s.input = .feed bytes :: rest ∧ lookup s.cfg c = some p ∧
      .callGate c d ∈ s'.effects.drop s.effects.length ∧ (s'.recAt p).gateState = .notStarted) ∨
    (∃ t rest, s.input = .tick t :: rest ∧
      (((s.recAt p).gateState = .notStarted ∧ (s'.recAt p).gateState = .running) ∨
       ((s.recAt p).gateState = .running ∧ (s'.recAt p).gateState = .finished))) ∨
    (∃ rest, s.input = .reset :: rest ∧ (s'.recAt p).gateState = s.cfg.resetGateState)

/-- R42, R71, R136, R138: the frame of every instruction: it drives no pin, and touches no buffer, record or duty register but
those of the channel then latched. -/
def Obligations.InstructionsTouchOnlyTheLatchedChannel : Prop :=
  ∀ (i : Instr) (s t : State), s.Inv → exec i s = .next t →
    t.cfg = s.cfg ∧ t.pins = s.pins ∧ t.input = s.input ∧ t.now = s.now ∧
    (∀ q, lookup s.cfg t.cur ≠ some q → t.bufAt q = s.bufAt q ∧ t.recAt q = s.recAt q) ∧
    (∀ r, (∀ q, lookup s.cfg t.cur = some q → (s.cfg.entry q).pwm ≠ r) → t.dutyAt r = s.dutyAt r)

/-- R78, R136: effects are only ever appended, and one instruction calls the scheduler at most once. -/
def Obligations.InstructionsCallTheSchedulerAtMostOnce : Prop :=
  ∀ (i : Instr) (s t : State), exec i s = .next t →
    t.effects = s.effects ∨ (∃ c d, t.effects = s.effects ++ [.callGate c d]) ∨
    (∃ c v r duty, t.effects = s.effects ++ [.callNote c v, .pwmWrite r duty])

/-- R230: on a well-formed configuration every instruction answers a next state when the clock sample is one the host may
supply (R185(d), R271). -/
def Obligations.EveryInstructionCompletes : Prop :=
  ∀ (i : Instr) (s : State), s.cfg.wellFormed = true → timely s.now → ∃ t, exec i s = .next t

/-- R230, R270, R271: on a well-formed configuration, when the sample of every pending byte is one the host may supply, every step
answers a next state, whatever the sample of the event before (a `Tick` may carry any sample). -/
def Obligations.EveryStepCompletesUnderTheHostsDuties : Prop :=
  ∀ s : State, s.cfg.wellFormed = true → (∀ x ∈ s.input, x.Timely) → ∃ t, step s = .next t

/-- R230, R185(d), R7: a step never faults, and is refused only for an ill-formed configuration, or for running an instruction
that completes a GATE of duration `d` on a configured channel at the sample `t` of its last byte with `t + d >= 2^32`: a whole
frame, or the second data byte of the GATE open on the latched channel. (Where the refusals are raised: log 8, 9.) -/
def Obligations.StepsStopOnlyForTheSpecsReasons : Prop :=
  ∀ s : State,
    (∀ f, step s ≠ .fault f) ∧
    (∀ r, step s = .refused r →
      (r = .illFormedConfig ∧ s.cfg.wellFormed = false) ∨
      (r = .timestampOverflow ∧ s.cfg.wellFormed = true ∧
        ∃ (bytes : List StampedByte) (rest : List Input) (i : Instr) (r' : List Byte) (b : StampedByte) (d : Duration) (p : Nat),
          s.input = .feed bytes :: rest ∧ decode (bytes.map (·.byte)) = .instr i r' ∧
          bytes[i.byteLen - 1]? = some b ∧ 2 ^ 32 ≤ b.time.toNat + d.toNat ∧
          ((∃ c, i = .gate c d ∧ lookup s.cfg c = some p) ∨
            (∃ x, i = .data x ∧ s.curValid = true ∧ lookup s.cfg s.cur = some p ∧ (s.bufAt p).widx = 2 ∧
              (s.bufAt p).slots[0].tag = .gate ∧
              d.toNat = ((s.bufAt p).slots[1].val.toNat % 128) * 128 + x.toNat))))

/-- R7, U5: with an ill-formed configuration every instruction, `Tick` and `Reset` is refused. -/
def Obligations.IllFormedConfigurationIsRefused : Prop :=
  ∀ (i : Instr) (s : State), s.cfg.wellFormed = false →
    exec i s = .refused .illFormedConfig ∧ execTick s = .refused .illFormedConfig ∧
    execReset s = .refused .illFormedConfig

/-- R135: a `feed` call does what its bytes do when fed one at a time: whole frames run in one step and byte by byte lead to the
same state, effects and refusals. -/
def Obligations.FeedIsItsBytesOneAtATime : Prop :=
  ∀ (s : State) (bytes : List StampedByte) (rest : List Input), ∃ k,
    Host.Core.run Sys2Proof.core k { s with input := .feed bytes :: rest } =
      Host.Core.run Sys2Proof.core bytes.length { s with input := bytes.map (fun b => .feed [b]) ++ rest }

/-- R261: while no status byte has arrived since reset, any sequence of data bytes is discarded, byte after byte. -/
def Obligations.StrayDataNeverReachesTheScheduler : Prop :=
  ∀ (s : State) (bytes : List StampedByte) (rest : List Input),
    s.cfg.wellFormed = true → s.curValid = false → (∀ b ∈ bytes, isDataByte b.byte = true) → bytes ≠ [] →
    s.input = .feed bytes :: rest →
    ∃ t, Host.Core.run Sys2Proof.core bytes.length s = .next { s with input := rest, now := t }

/-- R36, R40, U2, U3, U4, U11: two states that agree on everything a rule can still read behave alike for ever: they answer next
states that agree again (with the same outputs), or the same refusal. -/
def Obligations.UnreadStateIsNeverObserved : Prop :=
  ∀ a b : State, a.AgreesOnRead b →
    (∃ a' b', step a = .next a' ∧ step b = .next b' ∧ a'.AgreesOnRead b') ∨
    (∃ r, step a = .refused r ∧ step b = .refused r)
end

