-- ==== Sys2Proof/Laws/Decode.lean ====
section
/-! SUPPORT. The bit fields of an encoded byte, byte by byte. -/
namespace Sys2Proof

open Machine (statusVal dataVal Kind)

theorem highNibble_status : ∀ (k : BitVec 4) (c : ChanId), highNibble (k ++ c) = k := by decide

theorem lowNibble_status : ∀ (k : BitVec 4) (c : ChanId), lowNibble (k ++ c) = c := by decide

theorem lowSeven_dataVal : ∀ d : Payload, lowSeven (dataVal d) = d := by decide

theorem isDataByte_dataVal : ∀ d : Payload, isDataByte (dataVal d) = true := by decide

theorem isDataByte_status_note : ∀ c : ChanId, isDataByte (0x8#4 ++ c) = false := by decide

theorem isDataByte_status_gate : ∀ c : ChanId, isDataByte (0x9#4 ++ c) = false := by decide

/-- A byte of each class decodes to its own instruction. -/
theorem decodeByte_dataVal : ∀ d : Payload, decodeByte (dataVal d) = .data d := by decide

theorem decodeByte_stNote : ∀ c : ChanId, decodeByte (0x8#4 ++ c) = .stNote c := by decide

theorem decodeByte_stGate : ∀ c : ChanId, decodeByte (0x9#4 ++ c) = .stGate c := by decide

theorem decodeByte_rsvAB : ∀ x : BitVec 5, decodeByte (0b101#3 ++ x) = .rsvAB x := by decide

theorem decodeByte_rsvCF : ∀ x : BitVec 6, decodeByte (0b11#2 ++ x) = .rsvCF x := by decide

/-- The two halves of a duration put together again. -/
theorem duration_halves (d : Duration) : (d.extractLsb' 7 7 ++ d.extractLsb' 0 7 : BitVec 14) = d := by
  apply BitVec.eq_of_getLsbD_eq
  intro i hi
  simp only [BitVec.getLsbD_append, BitVec.getLsbD_extractLsb']
  by_cases h : i < 7
  · simp [h]
  · have : i - 7 < 7 := by omega
    have h7 : 7 + (i - 7) = i := by omega
    simp [h, this, h7]

theorem dataVal_lowSeven : ∀ b : Byte, isDataByte b = true → dataVal (lowSeven b) = b := by decide

end Sys2Proof
end

