-- ==== Sys2Proof/Laws/Outputs.lean ====
section
/-! SUPPORT. Output registers: a read after a write, and the canonical form. -/
namespace Sys2Proof.Machine

variable {α : Type} [DecidableEq α] {d : α}

omit [DecidableEq α] in
/-- The first entry of a canonical list has the least route, so a smaller route is unlisted. -/
theorem readOut_of_lt_all {l : OutRegs α} {r : Nat} (h : ∀ e ∈ l, r < e.1) : readOut d l r = d := by
  induction l with
  | nil => rfl
  | cons e l ih =>
    obtain ⟨k, w⟩ := e
    have hk : r < k := h (k, w) (by simp)
    have : k ≠ r := by omega
    simp only [readOut, this, if_false]
    exact ih (fun e he => h e (by simp [he]))

theorem outCanonical_nil : outCanonical d ([] : OutRegs α) := by simp [outCanonical]

theorem outCanonical_tail {e : Nat × α} {l : OutRegs α} (h : outCanonical d (e :: l)) : outCanonical d l := by
  simp only [outCanonical, List.map_cons, List.pairwise_cons] at *
  exact ⟨h.1.2, fun x hx => h.2 x (by simp [hx])⟩

theorem outCanonical_head_lt {e : Nat × α} {l : OutRegs α} (h : outCanonical d (e :: l)) : ∀ x ∈ l, e.1 < x.1 := by
  simp only [outCanonical, List.map_cons, List.pairwise_cons] at h
  exact fun x hx => h.1.1 x.1 (List.mem_map_of_mem hx)

/-- Every entry after a write is the one written or an old one. -/
theorem mem_writeOut {l : OutRegs α} {r : Nat} {v : α} {e : Nat × α} (h : e ∈ writeOut d l r v) :
    (e = (r, v) ∧ v ≠ d) ∨ e ∈ l := by
  induction l with
  | nil =>
    simp only [writeOut] at h
    split at h <;> simp_all
  | cons x l ih =>
    obtain ⟨k, w⟩ := x
    simp only [writeOut] at h
    split at h
    · rcases List.mem_cons.mp h with h | h
      · exact .inr (by simp [h])
      · exact (ih h).imp id (fun h => by simp [h])
    · split at h <;> split at h <;> simp_all
      all_goals tauto

/-- A write keeps the canonical form. -/
theorem writeOut_canonical {l : OutRegs α} (r : Nat) (v : α) (h : outCanonical d l) :
    outCanonical d (writeOut d l r v) := by
  induction l with
  | nil =>
    simp only [writeOut]
    split
    · exact h
    · rename_i hv
      simp [outCanonical, hv]
  | cons x l ih =>
    obtain ⟨k, w⟩ := x
    have ht := outCanonical_tail h
    have hlt := outCanonical_head_lt h
    have hw : w ≠ d := h.2 (k, w) (by simp)
    have cons_ok : ∀ (k : Nat) (w : α) (l : OutRegs α), outCanonical d l → w ≠ d → (∀ e ∈ l, k < e.1) →
        outCanonical d ((k, w) :: l) := by
      intro k w l hl hw hk
      refine ⟨?_, ?_⟩
      · simp only [List.map_cons, List.pairwise_cons, List.mem_map]
        exact ⟨by rintro _ ⟨e, he, rfl⟩; exact hk e he, hl.1⟩
      · intro e he
        rcases List.mem_cons.mp he with rfl | he
        · exact hw
        · exact hl.2 e he
    simp only [writeOut]
    split
    · rename_i hk
      refine cons_ok _ _ _ (ih ht) hw (fun e he => ?_)
      rcases mem_writeOut he with ⟨rfl, -⟩ | he
      · exact hk
      · exact hlt e he
    · split
      · rename_i hk
        split
        · exact ht
        · rename_i hv
          exact cons_ok _ _ _ ht hv (fun e he => hk ▸ hlt e he)
      · split
        · exact h
        · rename_i h1 h2 hv
          refine cons_ok _ _ _ h hv (fun e he => ?_)
          have hrk : r < k := by omega
          rcases List.mem_cons.mp he with rfl | he
          · exact hrk
          · exact lt_trans hrk (hlt e he)

/-- A read after a write. -/
theorem readOut_writeOut {l : OutRegs α} (r x : Nat) (v : α) (h : outCanonical d l) :
    readOut d (writeOut d l r v) x = if x = r then v else readOut d l x := by
  induction l with
  | nil =>
    simp only [writeOut, readOut]
    split
    · rename_i hv; simp [readOut, hv]
    · simp [readOut, eq_comm]
  | cons e l ih =>
    obtain ⟨k, w⟩ := e
    have hlt := outCanonical_head_lt h
    have ih := ih (outCanonical_tail h)
    simp only [writeOut]
    split
    · rename_i hk
      simp only [readOut, ih]
      split
      · have : x ≠ r := by omega
        simp [this]
      · rfl
    · split
      · rename_i hk
        subst hk
        split
        · rename_i hv
          by_cases hx : x = k
          · subst hx
            rw [readOut_of_lt_all hlt]
            simp [hv]
          · simp [readOut, hx, Ne.symm hx]
        · by_cases hx : x = k
          · simp [readOut, hx]
          · simp [readOut, hx, Ne.symm hx]
      · rename_i h1 h2
        have hrk : r < k := by omega
        split
        · rename_i hv
          by_cases hx : x = r
          · subst hx
            have : readOut d ((k, w) :: l) x = d := readOut_of_lt_all (fun e he => by
              rcases List.mem_cons.mp he with rfl | he
              · exact hrk
              · exact lt_trans hrk (hlt e he))
            simp [this, hv]
          · simp [hx]
        · by_cases hx : x = r
          · simp [readOut, hx]
          · simp [readOut, hx, Ne.symm hx]

/-- `pwmReg` after a write. -/
theorem State.setDuty_dutyAt {s : State} (h : outCanonical 0 s.pwm) (r x : PwmRoute) (v : Duty) :
    (s.setDuty r v).dutyAt x = if x = r then v else s.dutyAt x := readOut_writeOut r x v h

/-- `pinLevel` after a write. -/
theorem State.setLevel_levelAt {s : State} (h : outCanonical .low s.pins) (g x : PinRoute) (l : Level) :
    (s.setLevel g l).levelAt x = if x = g then l else s.levelAt x := readOut_writeOut g x l h

/-- A canonical list without entries for the routes it names is empty: what `Reset` leaves of the pins. -/
theorem readOut_default_eq_nil {l : OutRegs α} (h : outCanonical d l) (hr : ∀ e ∈ l, readOut d l e.1 = d) : l = [] := by
  cases l with
  | nil => rfl
  | cons e l =>
    have h1 : readOut d (e :: l) e.1 = e.2 := by obtain ⟨k, w⟩ := e; simp [readOut]
    exact absurd (h1.symm.trans (hr e (by simp))) (h.2 e (by simp))

end Sys2Proof.Machine
end

