-- ==== Sys2Proof/Laws/State.lean ====
section
/-! SUPPORT. What each update of the state does to each field, and to each reading of a field. -/
namespace Sys2Proof.Machine

/-! ## setDuty -/

@[simp] theorem State.setDuty_cfg (s : State) (r : PwmRoute) (v : Duty) : (s.setDuty r v).cfg = s.cfg := rfl
@[simp] theorem State.setDuty_curValid (s : State) (r : PwmRoute) (v : Duty) : (s.setDuty r v).curValid = s.curValid := rfl
@[simp] theorem State.setDuty_cur (s : State) (r : PwmRoute) (v : Duty) : (s.setDuty r v).cur = s.cur := rfl
@[simp] theorem State.setDuty_bufs (s : State) (r : PwmRoute) (v : Duty) : (s.setDuty r v).bufs = s.bufs := rfl
@[simp] theorem State.setDuty_recs (s : State) (r : PwmRoute) (v : Duty) : (s.setDuty r v).recs = s.recs := rfl
@[simp] theorem State.setDuty_pwm (s : State) (r : PwmRoute) (v : Duty) : (s.setDuty r v).pwm = writeOut 0 s.pwm r v := rfl
@[simp] theorem State.setDuty_pins (s : State) (r : PwmRoute) (v : Duty) : (s.setDuty r v).pins = s.pins := rfl
@[simp] theorem State.setDuty_input (s : State) (r : PwmRoute) (v : Duty) : (s.setDuty r v).input = s.input := rfl
@[simp] theorem State.setDuty_now (s : State) (r : PwmRoute) (v : Duty) : (s.setDuty r v).now = s.now := rfl
@[simp] theorem State.setDuty_effects (s : State) (r : PwmRoute) (v : Duty) : (s.setDuty r v).effects = s.effects := rfl
@[simp] theorem State.setDuty_bufAt (s : State) (r : PwmRoute) (v : Duty) (q : Nat) : (s.setDuty r v).bufAt q = s.bufAt q := rfl
@[simp] theorem State.setDuty_recAt (s : State) (r : PwmRoute) (v : Duty) (q : Nat) : (s.setDuty r v).recAt q = s.recAt q := rfl
@[simp] theorem State.setDuty_levelAt (s : State) (r : PwmRoute) (v : Duty) (x : PinRoute) : (s.setDuty r v).levelAt x = s.levelAt x := rfl

/-! ## setLevel -/

@[simp] theorem State.setLevel_cfg (s : State) (g : PinRoute) (l : Level) : (s.setLevel g l).cfg = s.cfg := rfl
@[simp] theorem State.setLevel_curValid (s : State) (g : PinRoute) (l : Level) : (s.setLevel g l).curValid = s.curValid := rfl
@[simp] theorem State.setLevel_cur (s : State) (g : PinRoute) (l : Level) : (s.setLevel g l).cur = s.cur := rfl
@[simp] theorem State.setLevel_bufs (s : State) (g : PinRoute) (l : Level) : (s.setLevel g l).bufs = s.bufs := rfl
@[simp] theorem State.setLevel_recs (s : State) (g : PinRoute) (l : Level) : (s.setLevel g l).recs = s.recs := rfl
@[simp] theorem State.setLevel_pwm (s : State) (g : PinRoute) (l : Level) : (s.setLevel g l).pwm = s.pwm := rfl
@[simp] theorem State.setLevel_pins (s : State) (g : PinRoute) (l : Level) : (s.setLevel g l).pins = writeOut .low s.pins g l := rfl
@[simp] theorem State.setLevel_input (s : State) (g : PinRoute) (l : Level) : (s.setLevel g l).input = s.input := rfl
@[simp] theorem State.setLevel_now (s : State) (g : PinRoute) (l : Level) : (s.setLevel g l).now = s.now := rfl
@[simp] theorem State.setLevel_effects (s : State) (g : PinRoute) (l : Level) : (s.setLevel g l).effects = s.effects := rfl
@[simp] theorem State.setLevel_bufAt (s : State) (g : PinRoute) (l : Level) (q : Nat) : (s.setLevel g l).bufAt q = s.bufAt q := rfl
@[simp] theorem State.setLevel_recAt (s : State) (g : PinRoute) (l : Level) (q : Nat) : (s.setLevel g l).recAt q = s.recAt q := rfl
@[simp] theorem State.setLevel_dutyAt (s : State) (g : PinRoute) (l : Level) (x : PwmRoute) : (s.setLevel g l).dutyAt x = s.dutyAt x := rfl

/-! ## setBuf -/

@[simp] theorem State.setBuf_cfg (s : State) (p : Nat) (b : AsmBuf) : (s.setBuf p b).cfg = s.cfg := rfl
@[simp] theorem State.setBuf_curValid (s : State) (p : Nat) (b : AsmBuf) : (s.setBuf p b).curValid = s.curValid := rfl
@[simp] theorem State.setBuf_cur (s : State) (p : Nat) (b : AsmBuf) : (s.setBuf p b).cur = s.cur := rfl
@[simp] theorem State.setBuf_bufs (s : State) (p : Nat) (b : AsmBuf) : (s.setBuf p b).bufs = s.bufs.set p b := rfl
@[simp] theorem State.setBuf_recs (s : State) (p : Nat) (b : AsmBuf) : (s.setBuf p b).recs = s.recs := rfl
@[simp] theorem State.setBuf_pwm (s : State) (p : Nat) (b : AsmBuf) : (s.setBuf p b).pwm = s.pwm := rfl
@[simp] theorem State.setBuf_pins (s : State) (p : Nat) (b : AsmBuf) : (s.setBuf p b).pins = s.pins := rfl
@[simp] theorem State.setBuf_input (s : State) (p : Nat) (b : AsmBuf) : (s.setBuf p b).input = s.input := rfl
@[simp] theorem State.setBuf_now (s : State) (p : Nat) (b : AsmBuf) : (s.setBuf p b).now = s.now := rfl
@[simp] theorem State.setBuf_effects (s : State) (p : Nat) (b : AsmBuf) : (s.setBuf p b).effects = s.effects := rfl
@[simp] theorem State.setBuf_recAt (s : State) (p : Nat) (b : AsmBuf) (q : Nat) : (s.setBuf p b).recAt q = s.recAt q := rfl
@[simp] theorem State.setBuf_dutyAt (s : State) (p : Nat) (b : AsmBuf) (x : PwmRoute) : (s.setBuf p b).dutyAt x = s.dutyAt x := rfl
@[simp] theorem State.setBuf_levelAt (s : State) (p : Nat) (b : AsmBuf) (x : PinRoute) : (s.setBuf p b).levelAt x = s.levelAt x := rfl

/-! ## setRec -/

@[simp] theorem State.setRec_cfg (s : State) (p : Nat) (r : EventRec) : (s.setRec p r).cfg = s.cfg := rfl
@[simp] theorem State.setRec_curValid (s : State) (p : Nat) (r : EventRec) : (s.setRec p r).curValid = s.curValid := rfl
@[simp] theorem State.setRec_cur (s : State) (p : Nat) (r : EventRec) : (s.setRec p r).cur = s.cur := rfl
@[simp] theorem State.setRec_bufs (s : State) (p : Nat) (r : EventRec) : (s.setRec p r).bufs = s.bufs := rfl
@[simp] theorem State.setRec_recs (s : State) (p : Nat) (r : EventRec) : (s.setRec p r).recs = s.recs.set p r := rfl
@[simp] theorem State.setRec_pwm (s : State) (p : Nat) (r : EventRec) : (s.setRec p r).pwm = s.pwm := rfl
@[simp] theorem State.setRec_pins (s : State) (p : Nat) (r : EventRec) : (s.setRec p r).pins = s.pins := rfl
@[simp] theorem State.setRec_input (s : State) (p : Nat) (r : EventRec) : (s.setRec p r).input = s.input := rfl
@[simp] theorem State.setRec_now (s : State) (p : Nat) (r : EventRec) : (s.setRec p r).now = s.now := rfl
@[simp] theorem State.setRec_effects (s : State) (p : Nat) (r : EventRec) : (s.setRec p r).effects = s.effects := rfl
@[simp] theorem State.setRec_bufAt (s : State) (p : Nat) (r : EventRec) (q : Nat) : (s.setRec p r).bufAt q = s.bufAt q := rfl
@[simp] theorem State.setRec_dutyAt (s : State) (p : Nat) (r : EventRec) (x : PwmRoute) : (s.setRec p r).dutyAt x = s.dutyAt x := rfl
@[simp] theorem State.setRec_levelAt (s : State) (p : Nat) (r : EventRec) (x : PinRoute) : (s.setRec p r).levelAt x = s.levelAt x := rfl

/-! ## latch -/

@[simp] theorem State.latch_cfg (s : State) (c : ChanId) : (s.latch c).cfg = s.cfg := rfl
@[simp] theorem State.latch_curValid (s : State) (c : ChanId) : (s.latch c).curValid = true := rfl
@[simp] theorem State.latch_cur (s : State) (c : ChanId) : (s.latch c).cur = c := rfl
@[simp] theorem State.latch_bufs (s : State) (c : ChanId) : (s.latch c).bufs = s.bufs := rfl
@[simp] theorem State.latch_recs (s : State) (c : ChanId) : (s.latch c).recs = s.recs := rfl
@[simp] theorem State.latch_pwm (s : State) (c : ChanId) : (s.latch c).pwm = s.pwm := rfl
@[simp] theorem State.latch_pins (s : State) (c : ChanId) : (s.latch c).pins = s.pins := rfl
@[simp] theorem State.latch_input (s : State) (c : ChanId) : (s.latch c).input = s.input := rfl
@[simp] theorem State.latch_now (s : State) (c : ChanId) : (s.latch c).now = s.now := rfl
@[simp] theorem State.latch_effects (s : State) (c : ChanId) : (s.latch c).effects = s.effects := rfl
@[simp] theorem State.latch_bufAt (s : State) (c : ChanId) (q : Nat) : (s.latch c).bufAt q = s.bufAt q := rfl
@[simp] theorem State.latch_recAt (s : State) (c : ChanId) (q : Nat) : (s.latch c).recAt q = s.recAt q := rfl
@[simp] theorem State.latch_dutyAt (s : State) (c : ChanId) (x : PwmRoute) : (s.latch c).dutyAt x = s.dutyAt x := rfl
@[simp] theorem State.latch_levelAt (s : State) (c : ChanId) (x : PinRoute) : (s.latch c).levelAt x = s.levelAt x := rfl

/-! ## emit -/

@[simp] theorem State.emit_cfg (s : State) (e : Effect) : (s.emit e).cfg = s.cfg := rfl
@[simp] theorem State.emit_curValid (s : State) (e : Effect) : (s.emit e).curValid = s.curValid := rfl
@[simp] theorem State.emit_cur (s : State) (e : Effect) : (s.emit e).cur = s.cur := rfl
@[simp] theorem State.emit_bufs (s : State) (e : Effect) : (s.emit e).bufs = s.bufs := rfl
@[simp] theorem State.emit_recs (s : State) (e : Effect) : (s.emit e).recs = s.recs := rfl
@[simp] theorem State.emit_pwm (s : State) (e : Effect) : (s.emit e).pwm = s.pwm := rfl
@[simp] theorem State.emit_pins (s : State) (e : Effect) : (s.emit e).pins = s.pins := rfl
@[simp] theorem State.emit_input (s : State) (e : Effect) : (s.emit e).input = s.input := rfl
@[simp] theorem State.emit_now (s : State) (e : Effect) : (s.emit e).now = s.now := rfl
@[simp] theorem State.emit_effects (s : State) (e : Effect) : (s.emit e).effects = s.effects ++ [e] := rfl
@[simp] theorem State.emit_bufAt (s : State) (e : Effect) (q : Nat) : (s.emit e).bufAt q = s.bufAt q := rfl
@[simp] theorem State.emit_recAt (s : State) (e : Effect) (q : Nat) : (s.emit e).recAt q = s.recAt q := rfl
@[simp] theorem State.emit_dutyAt (s : State) (e : Effect) (x : PwmRoute) : (s.emit e).dutyAt x = s.dutyAt x := rfl
@[simp] theorem State.emit_levelAt (s : State) (e : Effect) (x : PinRoute) : (s.emit e).levelAt x = s.levelAt x := rfl

/-! ## takeEvent -/

@[simp] theorem State.takeEvent_cfg (s : State) (t : Time) (inp : List Input) : (s.takeEvent t inp).cfg = s.cfg := rfl
@[simp] theorem State.takeEvent_curValid (s : State) (t : Time) (inp : List Input) : (s.takeEvent t inp).curValid = s.curValid := rfl
@[simp] theorem State.takeEvent_cur (s : State) (t : Time) (inp : List Input) : (s.takeEvent t inp).cur = s.cur := rfl
@[simp] theorem State.takeEvent_bufs (s : State) (t : Time) (inp : List Input) : (s.takeEvent t inp).bufs = s.bufs := rfl
@[simp] theorem State.takeEvent_recs (s : State) (t : Time) (inp : List Input) : (s.takeEvent t inp).recs = s.recs := rfl
@[simp] theorem State.takeEvent_pwm (s : State) (t : Time) (inp : List Input) : (s.takeEvent t inp).pwm = s.pwm := rfl
@[simp] theorem State.takeEvent_pins (s : State) (t : Time) (inp : List Input) : (s.takeEvent t inp).pins = s.pins := rfl
@[simp] theorem State.takeEvent_input (s : State) (t : Time) (inp : List Input) : (s.takeEvent t inp).input = inp := rfl
@[simp] theorem State.takeEvent_now (s : State) (t : Time) (inp : List Input) : (s.takeEvent t inp).now = t := rfl
@[simp] theorem State.takeEvent_effects (s : State) (t : Time) (inp : List Input) : (s.takeEvent t inp).effects = s.effects := rfl
@[simp] theorem State.takeEvent_bufAt (s : State) (t : Time) (inp : List Input) (q : Nat) : (s.takeEvent t inp).bufAt q = s.bufAt q := rfl
@[simp] theorem State.takeEvent_recAt (s : State) (t : Time) (inp : List Input) (q : Nat) : (s.takeEvent t inp).recAt q = s.recAt q := rfl
@[simp] theorem State.takeEvent_dutyAt (s : State) (t : Time) (inp : List Input) (x : PwmRoute) : (s.takeEvent t inp).dutyAt x = s.dutyAt x := rfl
@[simp] theorem State.takeEvent_levelAt (s : State) (t : Time) (inp : List Input) (x : PinRoute) : (s.takeEvent t inp).levelAt x = s.levelAt x := rfl

/-! ## storeUnit -/

@[simp] theorem State.storeUnit_cfg (s : State) (p : Nat) (i : Fin CAP) (u : MsgUnit) : (s.storeUnit p i u).cfg = s.cfg := rfl
@[simp] theorem State.storeUnit_curValid (s : State) (p : Nat) (i : Fin CAP) (u : MsgUnit) : (s.storeUnit p i u).curValid = s.curValid := rfl
@[simp] theorem State.storeUnit_cur (s : State) (p : Nat) (i : Fin CAP) (u : MsgUnit) : (s.storeUnit p i u).cur = s.cur := rfl
@[simp] theorem State.storeUnit_bufs (s : State) (p : Nat) (i : Fin CAP) (u : MsgUnit) :
    (s.storeUnit p i u).bufs = s.bufs.set p { s.bufAt p with slots := (s.bufAt p).slots.set i u } := rfl
@[simp] theorem State.storeUnit_recs (s : State) (p : Nat) (i : Fin CAP) (u : MsgUnit) : (s.storeUnit p i u).recs = s.recs := rfl
@[simp] theorem State.storeUnit_pwm (s : State) (p : Nat) (i : Fin CAP) (u : MsgUnit) : (s.storeUnit p i u).pwm = s.pwm := rfl
@[simp] theorem State.storeUnit_pins (s : State) (p : Nat) (i : Fin CAP) (u : MsgUnit) : (s.storeUnit p i u).pins = s.pins := rfl
@[simp] theorem State.storeUnit_input (s : State) (p : Nat) (i : Fin CAP) (u : MsgUnit) : (s.storeUnit p i u).input = s.input := rfl
@[simp] theorem State.storeUnit_now (s : State) (p : Nat) (i : Fin CAP) (u : MsgUnit) : (s.storeUnit p i u).now = s.now := rfl
@[simp] theorem State.storeUnit_effects (s : State) (p : Nat) (i : Fin CAP) (u : MsgUnit) : (s.storeUnit p i u).effects = s.effects := rfl
@[simp] theorem State.storeUnit_recAt (s : State) (p : Nat) (i : Fin CAP) (u : MsgUnit) (q : Nat) : (s.storeUnit p i u).recAt q = s.recAt q := rfl
@[simp] theorem State.storeUnit_dutyAt (s : State) (p : Nat) (i : Fin CAP) (u : MsgUnit) (x : PwmRoute) : (s.storeUnit p i u).dutyAt x = s.dutyAt x := rfl
@[simp] theorem State.storeUnit_levelAt (s : State) (p : Nat) (i : Fin CAP) (u : MsgUnit) (x : PinRoute) : (s.storeUnit p i u).levelAt x = s.levelAt x := rfl

/-! ## setWidx -/

@[simp] theorem State.setWidx_cfg (s : State) (p n : Nat) : (s.setWidx p n).cfg = s.cfg := rfl
@[simp] theorem State.setWidx_curValid (s : State) (p n : Nat) : (s.setWidx p n).curValid = s.curValid := rfl
@[simp] theorem State.setWidx_cur (s : State) (p n : Nat) : (s.setWidx p n).cur = s.cur := rfl
@[simp] theorem State.setWidx_bufs (s : State) (p n : Nat) :
    (s.setWidx p n).bufs = s.bufs.set p { s.bufAt p with widx := wrapIndex n } := rfl
@[simp] theorem State.setWidx_recs (s : State) (p n : Nat) : (s.setWidx p n).recs = s.recs := rfl
@[simp] theorem State.setWidx_pwm (s : State) (p n : Nat) : (s.setWidx p n).pwm = s.pwm := rfl
@[simp] theorem State.setWidx_pins (s : State) (p n : Nat) : (s.setWidx p n).pins = s.pins := rfl
@[simp] theorem State.setWidx_input (s : State) (p n : Nat) : (s.setWidx p n).input = s.input := rfl
@[simp] theorem State.setWidx_now (s : State) (p n : Nat) : (s.setWidx p n).now = s.now := rfl
@[simp] theorem State.setWidx_effects (s : State) (p n : Nat) : (s.setWidx p n).effects = s.effects := rfl
@[simp] theorem State.setWidx_recAt (s : State) (p n : Nat) (q : Nat) : (s.setWidx p n).recAt q = s.recAt q := rfl
@[simp] theorem State.setWidx_dutyAt (s : State) (p n : Nat) (x : PwmRoute) : (s.setWidx p n).dutyAt x = s.dutyAt x := rfl
@[simp] theorem State.setWidx_levelAt (s : State) (p n : Nat) (x : PinRoute) : (s.setWidx p n).levelAt x = s.levelAt x := rfl

/-! ## driveDuty -/

@[simp] theorem State.driveDuty_cfg (s : State) (r : PwmRoute) (v : Duty) : (s.driveDuty r v).cfg = s.cfg := rfl
@[simp] theorem State.driveDuty_curValid (s : State) (r : PwmRoute) (v : Duty) : (s.driveDuty r v).curValid = s.curValid := rfl
@[simp] theorem State.driveDuty_cur (s : State) (r : PwmRoute) (v : Duty) : (s.driveDuty r v).cur = s.cur := rfl
@[simp] theorem State.driveDuty_bufs (s : State) (r : PwmRoute) (v : Duty) : (s.driveDuty r v).bufs = s.bufs := rfl
@[simp] theorem State.driveDuty_recs (s : State) (r : PwmRoute) (v : Duty) : (s.driveDuty r v).recs = s.recs := rfl
@[simp] theorem State.driveDuty_pwm (s : State) (r : PwmRoute) (v : Duty) : (s.driveDuty r v).pwm = writeOut 0 s.pwm r v := rfl
@[simp] theorem State.driveDuty_pins (s : State) (r : PwmRoute) (v : Duty) : (s.driveDuty r v).pins = s.pins := rfl
@[simp] theorem State.driveDuty_input (s : State) (r : PwmRoute) (v : Duty) : (s.driveDuty r v).input = s.input := rfl
@[simp] theorem State.driveDuty_now (s : State) (r : PwmRoute) (v : Duty) : (s.driveDuty r v).now = s.now := rfl
@[simp] theorem State.driveDuty_effects (s : State) (r : PwmRoute) (v : Duty) : (s.driveDuty r v).effects = s.effects ++ [.pwmWrite r v] := rfl
@[simp] theorem State.driveDuty_bufAt (s : State) (r : PwmRoute) (v : Duty) (q : Nat) : (s.driveDuty r v).bufAt q = s.bufAt q := rfl
@[simp] theorem State.driveDuty_recAt (s : State) (r : PwmRoute) (v : Duty) (q : Nat) : (s.driveDuty r v).recAt q = s.recAt q := rfl
@[simp] theorem State.driveDuty_levelAt (s : State) (r : PwmRoute) (v : Duty) (x : PinRoute) : (s.driveDuty r v).levelAt x = s.levelAt x := rfl

/-! ## drivePin -/

@[simp] theorem State.drivePin_cfg (s : State) (g : PinRoute) (l : Level) : (s.drivePin g l).cfg = s.cfg := rfl
@[simp] theorem State.drivePin_curValid (s : State) (g : PinRoute) (l : Level) : (s.drivePin g l).curValid = s.curValid := rfl
@[simp] theorem State.drivePin_cur (s : State) (g : PinRoute) (l : Level) : (s.drivePin g l).cur = s.cur := rfl
@[simp] theorem State.drivePin_bufs (s : State) (g : PinRoute) (l : Level) : (s.drivePin g l).bufs = s.bufs := rfl
@[simp] theorem State.drivePin_recs (s : State) (g : PinRoute) (l : Level) : (s.drivePin g l).recs = s.recs := rfl
@[simp] theorem State.drivePin_pwm (s : State) (g : PinRoute) (l : Level) : (s.drivePin g l).pwm = s.pwm := rfl
@[simp] theorem State.drivePin_pins (s : State) (g : PinRoute) (l : Level) : (s.drivePin g l).pins = writeOut .low s.pins g l := rfl
@[simp] theorem State.drivePin_input (s : State) (g : PinRoute) (l : Level) : (s.drivePin g l).input = s.input := rfl
@[simp] theorem State.drivePin_now (s : State) (g : PinRoute) (l : Level) : (s.drivePin g l).now = s.now := rfl
@[simp] theorem State.drivePin_effects (s : State) (g : PinRoute) (l : Level) : (s.drivePin g l).effects = s.effects ++ [.gateWrite g l] := rfl
@[simp] theorem State.drivePin_bufAt (s : State) (g : PinRoute) (l : Level) (q : Nat) : (s.drivePin g l).bufAt q = s.bufAt q := rfl
@[simp] theorem State.drivePin_recAt (s : State) (g : PinRoute) (l : Level) (q : Nat) : (s.drivePin g l).recAt q = s.recAt q := rfl
@[simp] theorem State.drivePin_dutyAt (s : State) (g : PinRoute) (l : Level) (x : PwmRoute) : (s.drivePin g l).dutyAt x = s.dutyAt x := rfl

end Sys2Proof.Machine
end

