-- ==== Sys2Proof/Laws/Ops.lean ====
section
/-! SUPPORT. One lemma for each shared operation: everything it can answer. -/
namespace Sys2Proof.Machine

/-! ## Sequencing -/

@[simp] theorem andThen_next (s : State) (f : State → Result) : andThen (.next s) f = f s := rfl
@[simp] theorem andThen_refused (r : Refusal) (f : State → Result) : andThen (.refused r) f = .refused r := rfl
@[simp] theorem andThen_fault (r : Fault) (f : State → Result) : andThen (.fault r) f = .fault r := rfl

theorem andThen_eq_next {o : Result} {f : State → Result} {t : State} :
    andThen o f = .next t ↔ ∃ s, o = .next s ∧ f s = .next t := by
  cases o <;> simp

theorem andThen_eq_refused {o : Result} {f : State → Result} {r : Refusal} :
    andThen o f = .refused r ↔ o = .refused r ∨ ∃ s, o = .next s ∧ f s = .refused r := by
  cases o <;> simp

theorem andThen_assoc (o : Result) (f g : State → Result) :
    andThen (andThen o f) g = andThen o (fun s => andThen (f s) g) := by
  cases o <;> rfl

theorem onWellFormed_pos {s : State} (h : s.cfg.wellFormed = true) (o : Result) : onWellFormed s o = o := by
  simp [onWellFormed, h]

theorem onWellFormed_eq_next {s t : State} {o : Result} :
    onWellFormed s o = .next t ↔ s.cfg.wellFormed = true ∧ o = .next t := by
  unfold onWellFormed
  split <;> simp_all

theorem onWellFormed_eq_refused {s : State} {o : Result} {r : Refusal} :
    onWellFormed s o = .refused r ↔
      (s.cfg.wellFormed = false ∧ r = .illFormedConfig) ∨ (s.cfg.wellFormed = true ∧ o = .refused r) := by
  unfold onWellFormed
  cases s.cfg.wellFormed
  · simp only [Bool.false_eq_true, if_false, Host.Outcome.refused.injEq, true_and, false_and, or_false]
    exact eq_comm
  · simp

/-! ## Lookup -/

theorem Config.entry_eq_getElem {cfg : Config} {p : Nat} (h : p < cfg.nch) : cfg.entry p = cfg.chans[p] := by
  simp [Config.entry, h]

/-- `lookup` answers the least position with the identifier (R71). -/
theorem lookup_eq_some {cfg : Config} {c : ChanId} {p : Nat} :
    lookup cfg c = some p ↔ p < cfg.nch ∧ (cfg.entry p).chan = c ∧ ∀ q < p, (cfg.entry q).chan ≠ c := by
  rw [lookup, List.findIdx?_eq_some_iff_getElem]
  constructor
  · rintro ⟨h, hc, hl⟩
    refine ⟨h, ?_, fun q hq => ?_⟩
    · rw [Config.entry_eq_getElem h]; simpa using hc
    · rw [Config.entry_eq_getElem (lt_trans hq h)]; simpa using hl q hq
  · rintro ⟨h, hc, hl⟩
    refine ⟨h, ?_, fun q hq => ?_⟩
    · rw [Config.entry_eq_getElem h] at hc; simpa using hc
    · have := hl q hq
      rw [Config.entry_eq_getElem (lt_trans hq h)] at this; simpa using this

theorem lookup_eq_none {cfg : Config} {c : ChanId} :
    lookup cfg c = none ↔ ∀ p < cfg.nch, (cfg.entry p).chan ≠ c := by
  rw [lookup, List.findIdx?_eq_none_iff]
  constructor
  · intro h p hp
    rw [Config.entry_eq_getElem hp]
    simpa using h _ (List.getElem_mem hp)
  · intro h e he
    obtain ⟨p, hp, rfl⟩ := List.getElem_of_mem he
    have := h p hp
    rw [Config.entry_eq_getElem hp] at this
    simpa using this

theorem lookup_lt {cfg : Config} {c : ChanId} {p : Nat} (h : lookup cfg c = some p) : p < cfg.nch := (lookup_eq_some.mp h).1

theorem lookup_chan {cfg : Config} {c : ChanId} {p : Nat} (h : lookup cfg c = some p) : (cfg.entry p).chan = c :=
  (lookup_eq_some.mp h).2.1

/-- The scheduler, called with the identifier of a position the parser found, finds that position. -/
theorem lookup_entry {cfg : Config} {c : ChanId} {p : Nat} (h : lookup cfg c = some p) :
    lookup cfg (cfg.entry p).chan = some p := by rw [lookup_chan h, h]

theorem lookup_inj {cfg : Config} {a b : ChanId} {p : Nat} (ha : lookup cfg a = some p) (hb : lookup cfg b = some p) :
    a = b := (lookup_chan ha).symm.trans (lookup_chan hb)

/-- In a well-formed configuration every position is found by its identifier (R7, R71). -/
theorem lookup_of_wellFormed {cfg : Config} (hw : cfg.wellFormed = true) {p : Nat} (hp : p < cfg.nch) :
    lookup cfg (cfg.entry p).chan = some p := by
  refine lookup_eq_some.mpr ⟨hp, rfl, fun q hq he => ?_⟩
  have hd : (cfg.chans.map (·.chan)).Nodup := by
    simp only [Config.wellFormed, Config.distinctChannels, Bool.and_eq_true, decide_eq_true_eq] at hw
    exact hw.1.2
  have hq' : q < cfg.nch := lt_trans hq hp
  rw [Config.entry_eq_getElem hp, Config.entry_eq_getElem hq'] at he
  have : q = p := (List.Nodup.getElem_inj_iff hd (hi := by simpa using hq') (hj := by simpa using hp)).mp (by simpa using he)
  omega

/-- In a well-formed configuration the table index is in range: the lookup is total (R180, R185(a)). -/
theorem dutyOf_mem {cfg : Config} (hw : cfg.wellFormed = true) {p : Nat} (hp : p < cfg.nch) (v : Byte) :
    (cfg.entry p).lut[v.toNat % (cfg.entry p).lut.length]? = some (dutyOf (cfg.entry p) v) := by
  have hpos : 0 < (cfg.entry p).lut.length := by
    simp only [Config.wellFormed, Config.tablesNonempty, Bool.and_eq_true, List.all_eq_true] at hw
    have := hw.2 _ (List.getElem_mem hp)
    rw [Config.entry_eq_getElem hp]
    cases h : (cfg.chans[p]).lut <;> simp_all
  have hlt := Nat.mod_lt v.toNat hpos
  simp [dutyOf, hlt]

/-! ## Buffers and records -/

theorem State.bufAt_setBuf {s : State} (p q : Nat) (b : AsmBuf) (hp : p < s.bufs.length) :
    (s.setBuf p b).bufAt q = if q = p then b else s.bufAt q := by
  simp only [State.bufAt, State.setBuf_bufs, List.getD_eq_getElem?_getD, List.getElem?_set]
  by_cases h : q = p
  · subst h; simp [hp]
  · simp [h, Ne.symm h]

theorem State.recAt_setRec {s : State} (p q : Nat) (r : EventRec) (hp : p < s.recs.length) :
    (s.setRec p r).recAt q = if q = p then r else s.recAt q := by
  simp only [State.recAt, State.setRec_recs, List.getD_eq_getElem?_getD, List.getElem?_set]
  by_cases h : q = p
  · subst h; simp [hp]
  · simp [h, Ne.symm h]

theorem State.bufAt_setBuf_ne {s : State} {p q : Nat} (b : AsmBuf) (h : q ≠ p) : (s.setBuf p b).bufAt q = s.bufAt q := by
  simp [State.bufAt, Ne.symm h]

theorem State.recAt_setRec_ne {s : State} {p q : Nat} (r : EventRec) (h : q ≠ p) : (s.setRec p r).recAt q = s.recAt q := by
  simp [State.recAt, Ne.symm h]

/-- A position beyond the buffers reads as an idle buffer (log 16). -/
theorem State.bufAt_of_ge {s : State} {p : Nat} (h : s.bufs.length ≤ p) : s.bufAt p = AsmBuf.initial := by
  simp [State.bufAt, h]

theorem State.lt_of_isOpen {s : State} {p : Nat} (h : (s.bufAt p).isOpen = true) : p < s.bufs.length := by
  by_contra hn
  rw [State.bufAt_of_ge (by omega)] at h
  exact absurd h (by decide)

theorem AsmBuf.isOpen_iff {b : AsmBuf} : b.isOpen = true ↔ b.widx ≠ 0 := by simp [AsmBuf.isOpen]

theorem AsmBuf.not_isOpen_iff {b : AsmBuf} : b.isOpen = false ↔ b.widx = 0 := by simp [AsmBuf.isOpen]

/-! ## Sums and payloads -/

theorem gateEndOf_fits {t : Time} {d : Duration} (h : t.toNat + d.toNat < 2 ^ 32) :
    gateEndOf t d = some (t + d.setWidth 32) := by simp only [gateEndOf, h, if_true]

theorem gateEndOf_overflow {t : Time} {d : Duration} (h : ¬ t.toNat + d.toNat < 2 ^ 32) : gateEndOf t d = none := by
  simp only [gateEndOf, h, if_false]

theorem gateEndOf_timely {t : Time} (h : t.toNat + 16383 < 2 ^ 32) (d : Duration) :
    gateEndOf t d = some (t + d.setWidth 32) := gateEndOf_fits (by have := d.isLt; omega)

/-- The window's end is not before its start (R39). -/
theorem gateEndOf_ge {t e : Time} {d : Duration} (h : gateEndOf t d = some e) : t ≤ e := by
  unfold gateEndOf at h
  split at h
  · rename_i hf
    cases h
    rw [BitVec.le_def, BitVec.toNat_add, BitVec.toNat_setWidth]
    have := d.isLt
    omega
  · cases h

theorem completedKind_one (tag : Tag) : completedKind tag 1 = none := by cases tag <;> rfl

theorem completedKind_eq_some {tag : Tag} {n : Nat} {k : Kind} :
    completedKind tag n = some k ↔ (tag = .note ∧ n = 2 ∧ k = .note) ∨ (tag = .gate ∧ n = 3 ∧ k = .gate) := by
  by_cases h2 : n = 2 <;> by_cases h3 : n = 3 <;> cases tag <;> cases k <;> simp [completedKind, kindOfTag, Kind.len, h2, h3]

/-! ## The scheduler operations -/

theorem setNoteEvent_none {c : ChanId} {v : Byte} {s : State} (h : lookup s.cfg c = none) :
    setNoteEvent c v s = .next s := by simp [setNoteEvent, h]

theorem setNoteEvent_some {c : ChanId} {v : Byte} {s : State} {p : Nat} (h : lookup s.cfg c = some p) :
    setNoteEvent c v s =
      .next ((s.setRec p { s.recAt p with noteValue := v }).driveDuty (s.cfg.entry p).pwm (dutyOf (s.cfg.entry p) v)) := by
  simp [setNoteEvent, h]

theorem setGateEvent_none {c : ChanId} {d : Duration} {t : Time} {s : State} (h : lookup s.cfg c = none) :
    setGateEvent c d t s = .next s := by simp [setGateEvent, h]

theorem setGateEvent_some {c : ChanId} {d : Duration} {t e : Time} {s : State} {p : Nat} (h : lookup s.cfg c = some p)
    (he : gateEndOf t d = some e) :
    setGateEvent c d t s =
      .next (s.setRec p { s.recAt p with gateStart := t, gateEnd := e, gateState := .notStarted }) := by
  simp [setGateEvent, h, he]

theorem setGateEvent_overflow {c : ChanId} {d : Duration} {t : Time} {s : State} {p : Nat} (h : lookup s.cfg c = some p)
    (he : gateEndOf t d = none) : setGateEvent c d t s = .refused .timestampOverflow := by
  simp [setGateEvent, h, he]

/-! ## Completion -/

theorem attemptCompletion_keep {p n : Nat} {t : Time} {s : State} (h : completedKind (s.bufAt p).slots[0].tag n = none) :
    attemptCompletion p n t s = .next (s.setWidx p n) := by simp [attemptCompletion, h]

/-- A completed NOTE of a position the parser found (R134, R180). -/
theorem attemptCompletion_note {c : ChanId} {p : Nat} {t : Time} {s : State} (hl : lookup s.cfg c = some p)
    (ht : (s.bufAt p).slots[0].tag = .note) :
    attemptCompletion p 2 t s =
      .next ((((s.emit (.callNote c (s.bufAt p).slots[1].val)).setRec p
        { s.recAt p with noteValue := (s.bufAt p).slots[1].val }).driveDuty (s.cfg.entry p).pwm
          (dutyOf (s.cfg.entry p) (s.bufAt p).slots[1].val)).setWidx p 0) := by
  have hk : completedKind (s.bufAt p).slots[0].tag 2 = some .note := by rw [ht]; rfl
  simp [attemptCompletion, hk, dispatchFrame, notePayload, lookup_chan hl, setNoteEvent, hl]

/-- A completed GATE of a position the parser found, when the window fits (R134, R181). -/
theorem attemptCompletion_gate {c : ChanId} {p : Nat} {t e : Time} {s : State} (hl : lookup s.cfg c = some p)
    (ht : (s.bufAt p).slots[0].tag = .gate)
    (he : gateEndOf t (gatePayload (s.bufAt p).slots[1].val (s.bufAt p).slots[2].val) = some e) :
    attemptCompletion p 3 t s =
      .next (((s.emit (.callGate c (gatePayload (s.bufAt p).slots[1].val (s.bufAt p).slots[2].val))).setRec p
        { s.recAt p with gateStart := t, gateEnd := e, gateState := .notStarted }).setWidx p 0) := by
  have hk : completedKind (s.bufAt p).slots[0].tag 3 = some .gate := by rw [ht]; rfl
  simp [attemptCompletion, hk, dispatchFrame, lookup_chan hl, setGateEvent, hl, he]

/-- A completed GATE whose window does not fit is refused (R185(d), U1). -/
theorem attemptCompletion_overflow {c : ChanId} {p : Nat} {t : Time} {s : State} (hl : lookup s.cfg c = some p)
    (ht : (s.bufAt p).slots[0].tag = .gate)
    (he : gateEndOf t (gatePayload (s.bufAt p).slots[1].val (s.bufAt p).slots[2].val) = none) :
    attemptCompletion p 3 t s = .refused .timestampOverflow := by
  have hk : completedKind (s.bufAt p).slots[0].tag 3 = some .gate := by rw [ht]; rfl
  simp [attemptCompletion, hk, dispatchFrame, lookup_chan hl, setGateEvent, hl, he]

/-! ## The byte events -/

/-- The buffer a status byte leaves (R130, R131). -/
def AsmBuf.opened (b : AsmBuf) (k : Kind) (c : ChanId) : AsmBuf :=
  { widx := 1, slots := b.slots.set 0 { tag := k.tag, val := statusVal k c } }

theorem statusByte_none {k : Kind} {c : ChanId} {s : State} (hw : s.cfg.wellFormed = true) (h : lookup s.cfg c = none) :
    statusByte k c s = .next (s.latch c) := by simp [statusByte, onWellFormed_pos hw, h]

/-- A status byte for a configured channel, in any state (R130, R131). -/
theorem statusByte_some {k : Kind} {c : ChanId} {s : State} {p : Nat} (hw : s.cfg.wellFormed = true)
    (h : lookup s.cfg c = some p) :
    statusByte k c s = .next ((s.latch c).setBuf p ((s.bufAt p).opened k c)) := by
  simp only [statusByte, onWellFormed_pos hw, h]
  rw [attemptCompletion_keep (completedKind_one _)]
  simp only [State.setWidx, State.storeUnit, State.setBuf, State.latch]
  by_cases hp : p < s.bufs.length
  · simp [State.bufAt, hp, AsmBuf.opened, wrapIndex]
    rfl
  · have hset : ∀ b, s.bufs.set p b = s.bufs := fun b => List.set_eq_of_length_le (by omega)
    simp [hset]

/-- The three cases in which a data byte is stray (R132). -/
theorem dataByte_stray {b : Byte} {s : State} (hw : s.cfg.wellFormed = true)
    (h : s.curValid = false ∨ lookup s.cfg s.cur = none ∨ ∃ p, lookup s.cfg s.cur = some p ∧ (s.bufAt p).widx = 0) :
    dataByte b s = .next s := by
  rw [dataByte, onWellFormed_pos hw]
  rcases h with h | h | ⟨p, h, hx⟩
  · simp [h]
  · simp [h]
  · simp [h, AsmBuf.not_isOpen_iff.mpr hx]

/-- A data byte for an open command (R132). -/
theorem dataByte_open {b : Byte} {s : State} {p : Nat} (hw : s.cfg.wellFormed = true) (hv : s.curValid = true)
    (hl : lookup s.cfg s.cur = some p) (hx : (s.bufAt p).widx ≠ 0) :
    dataByte b s = attemptCompletion p ((s.bufAt p).widx.val + 1) s.now
      (s.storeUnit p (s.bufAt p).widx { tag := .data, val := b }) := by
  simp [dataByte, onWellFormed_pos hw, hv, hl, AsmBuf.isOpen_iff.mpr hx]

/-- What a data byte can do (R132, R134): it is stray, or it is stored without completing the frame, or it completes a NOTE, or
it completes a GATE, or it completes a GATE whose window does not fit. -/
theorem dataByte_cases {b : Byte} {s : State} (hw : s.cfg.wellFormed = true) :
    dataByte b s = .next s ∨
    ∃ p, s.curValid = true ∧ lookup s.cfg s.cur = some p ∧ (s.bufAt p).widx ≠ 0 ∧
      let s' := s.storeUnit p (s.bufAt p).widx { tag := .data, val := b }
      let n := (s.bufAt p).widx.val + 1
      (completedKind (s'.bufAt p).slots[0].tag n = none ∧ dataByte b s = .next (s'.setWidx p n)) ∨
      (n = 2 ∧ (s'.bufAt p).slots[0].tag = .note ∧
        dataByte b s = .next ((((s'.emit (.callNote s.cur (s'.bufAt p).slots[1].val)).setRec p
          { s.recAt p with noteValue := (s'.bufAt p).slots[1].val }).driveDuty (s.cfg.entry p).pwm
            (dutyOf (s.cfg.entry p) (s'.bufAt p).slots[1].val)).setWidx p 0)) ∨
      (n = 3 ∧ (s'.bufAt p).slots[0].tag = .gate ∧ ∃ e,
        gateEndOf s.now (gatePayload (s'.bufAt p).slots[1].val (s'.bufAt p).slots[2].val) = some e ∧
        dataByte b s = .next (((s'.emit
          (.callGate s.cur (gatePayload (s'.bufAt p).slots[1].val (s'.bufAt p).slots[2].val))).setRec p
            { s.recAt p with gateStart := s.now, gateEnd := e, gateState := .notStarted }).setWidx p 0)) ∨
      (n = 3 ∧ (s'.bufAt p).slots[0].tag = .gate ∧
        gateEndOf s.now (gatePayload (s'.bufAt p).slots[1].val (s'.bufAt p).slots[2].val) = none ∧
        dataByte b s = .refused .timestampOverflow) := by
  by_cases hv : s.curValid = true
  swap
  · exact .inl (dataByte_stray hw (.inl (by simpa using hv)))
  cases hl : lookup s.cfg s.cur with
  | none => exact .inl (dataByte_stray hw (.inr (.inl hl)))
  | some p =>
    by_cases hx : (s.bufAt p).widx = 0
    · exact .inl (dataByte_stray hw (.inr (.inr ⟨p, hl, hx⟩)))
    · refine .inr ⟨p, hv, rfl, hx, ?_⟩
      rw [dataByte_open hw hv hl hx]
      generalize hs' : s.storeUnit p (s.bufAt p).widx { tag := .data, val := b } = s'
      generalize hn : (s.bufAt p).widx.val + 1 = n
      have hc : s'.cfg = s.cfg := by subst hs'; rfl
      have hr : s'.recAt p = s.recAt p := by subst hs'; rfl
      have hl' : lookup s'.cfg s.cur = some p := by rw [hc, hl]
      cases hk : completedKind (s'.bufAt p).slots[0].tag n with
      | none => exact .inl ⟨hk, attemptCompletion_keep hk⟩
      | some k =>
        rcases completedKind_eq_some.mp hk with ⟨ht, rfl, rfl⟩ | ⟨ht, rfl, rfl⟩
        · refine .inr (.inl ⟨rfl, ht, ?_⟩)
          rw [attemptCompletion_note hl' ht, hc, hr]
        · cases he : gateEndOf s.now (gatePayload (s'.bufAt p).slots[1].val (s'.bufAt p).slots[2].val) with
          | none => exact .inr (.inr (.inr ⟨rfl, ht, he, attemptCompletion_overflow hl' ht he⟩))
          | some e =>
            refine .inr (.inr (.inl ⟨rfl, ht, e, he, ?_⟩))
            rw [attemptCompletion_gate hl' ht he, hr]

end Sys2Proof.Machine
end

