-- ==== Sys2Proof/Laws/Events.lean ====
section
/-! SUPPORT. What `Tick` and `Reset` do: one lemma a position, then the fold over the positions. -/
namespace Sys2Proof.Machine

/-! ## One position of a `Tick` -/

/-- The state a row of the tick table leads to (R200). -/
def GateRow.next : GateRow → GateState
  | .start => .running
  | .wait => .notStarted
  | .finish => .finished
  | .hold => .running
  | .done => .finished

/-- The level a row drives its pin to, if it drives it (R201, R203). -/
def GateRow.edge : GateRow → Option Level
  | .start => some .high
  | .finish => some .low
  | .wait => none
  | .hold => none
  | .done => none

/-- A row without an edge leaves the gate state as it is. -/
theorem gateRow_next_of_no_edge {r : EventRec} {t : Time} (h : (gateRow r t).edge = none) :
    (gateRow r t).next = r.gateState := by
  revert h
  unfold gateRow
  cases r.gateState <;> simp only <;> (try split) <;> simp [GateRow.edge, GateRow.next]

/-- `tickPosition` in one form: either nothing, or one edge and the next gate state. -/
theorem tickPosition_eq (t : Time) (s : State) (p : Nat) :
    tickPosition t s p =
      match (gateRow (s.recAt p) t).edge with
      | none => s
      | some l =>
        (s.drivePin (s.cfg.entry p).pin l).setRec p
          { s.recAt p with gateState := (gateRow (s.recAt p) t).next } := by
  unfold tickPosition
  cases gateRow (s.recAt p) t <;> rfl

section
variable (t : Time) (s : State) (p : Nat)

@[simp] theorem tickPosition_cfg : (tickPosition t s p).cfg = s.cfg := by unfold tickPosition; split <;> rfl
@[simp] theorem tickPosition_curValid : (tickPosition t s p).curValid = s.curValid := by unfold tickPosition; split <;> rfl
@[simp] theorem tickPosition_cur : (tickPosition t s p).cur = s.cur := by unfold tickPosition; split <;> rfl
@[simp] theorem tickPosition_bufs : (tickPosition t s p).bufs = s.bufs := by unfold tickPosition; split <;> rfl
@[simp] theorem tickPosition_pwm : (tickPosition t s p).pwm = s.pwm := by unfold tickPosition; split <;> rfl
@[simp] theorem tickPosition_input : (tickPosition t s p).input = s.input := by unfold tickPosition; split <;> rfl
@[simp] theorem tickPosition_now : (tickPosition t s p).now = s.now := by unfold tickPosition; split <;> rfl
@[simp] theorem tickPosition_recs_length : (tickPosition t s p).recs.length = s.recs.length := by
  unfold tickPosition; split <;> simp

/-- The record of the position after its row (R200). -/
theorem tickPosition_recAt_self (hp : p < s.recs.length) :
    (tickPosition t s p).recAt p = { s.recAt p with gateState := (gateRow (s.recAt p) t).next } := by
  rw [tickPosition_eq]
  cases h : (gateRow (s.recAt p) t).edge with
  | none => simp [gateRow_next_of_no_edge h]
  | some l => exact (State.recAt_setRec _ _ _ (by simpa using hp)).trans (if_pos rfl)

/-- The records of the other positions do not change: "Positions are independent" (R200). -/
theorem tickPosition_recAt_ne {q : Nat} (h : q ≠ p) : (tickPosition t s p).recAt q = s.recAt q := by
  rw [tickPosition_eq]
  split
  · rfl
  · rw [State.recAt_setRec_ne _ h]; rfl

/-- The effects of one position: one `GateWrite` for an edge (R201, R203). -/
theorem tickPosition_effects :
    (tickPosition t s p).effects = s.effects ++
      ((gateRow (s.recAt p) t).edge.map (Effect.gateWrite (s.cfg.entry p).pin)).toList := by
  rw [tickPosition_eq]
  split <;> rename_i h <;> simp [h]

/-- The pins after one position. -/
theorem tickPosition_pins :
    (tickPosition t s p).pins =
      match (gateRow (s.recAt p) t).edge with
      | none => s.pins
      | some l => writeOut .low s.pins (s.cfg.entry p).pin l := by
  rw [tickPosition_eq]
  cases (gateRow (s.recAt p) t).edge <;> rfl

end

/-! ## The whole `Tick` -/

/-- The fold over the first `n` positions (R200, R209). -/
def tickUpTo (t : Time) (n : Nat) (s : State) : State := (List.range n).foldl (tickPosition t) s

@[simp] theorem tickUpTo_zero (t : Time) (s : State) : tickUpTo t 0 s = s := rfl

theorem tickUpTo_succ (t : Time) (n : Nat) (s : State) :
    tickUpTo t (n + 1) s = tickPosition t (tickUpTo t n s) n := by
  simp [tickUpTo, List.range_succ]

theorem execTick_eq {s : State} (hw : s.cfg.wellFormed = true) :
    execTick s = .next (tickUpTo s.now s.cfg.nch s) := onWellFormed_pos hw _

theorem execTick_eq_next {s s' : State} :
    execTick s = .next s' ↔ s.cfg.wellFormed = true ∧ tickUpTo s.now s.cfg.nch s = s' := by
  rw [execTick, onWellFormed_eq_next, Host.Outcome.next.injEq, tickUpTo]

section
variable (t : Time) (n : Nat) (s : State)

@[simp] theorem tickUpTo_cfg : (tickUpTo t n s).cfg = s.cfg := by induction n <;> simp_all [tickUpTo_succ]
@[simp] theorem tickUpTo_curValid : (tickUpTo t n s).curValid = s.curValid := by induction n <;> simp_all [tickUpTo_succ]
@[simp] theorem tickUpTo_cur : (tickUpTo t n s).cur = s.cur := by induction n <;> simp_all [tickUpTo_succ]
@[simp] theorem tickUpTo_bufs : (tickUpTo t n s).bufs = s.bufs := by induction n <;> simp_all [tickUpTo_succ]
@[simp] theorem tickUpTo_pwm : (tickUpTo t n s).pwm = s.pwm := by induction n <;> simp_all [tickUpTo_succ]
@[simp] theorem tickUpTo_input : (tickUpTo t n s).input = s.input := by induction n <;> simp_all [tickUpTo_succ]
@[simp] theorem tickUpTo_now : (tickUpTo t n s).now = s.now := by induction n <;> simp_all [tickUpTo_succ]
@[simp] theorem tickUpTo_recs_length : (tickUpTo t n s).recs.length = s.recs.length := by
  induction n <;> simp_all [tickUpTo_succ]
@[simp] theorem tickUpTo_bufAt (q : Nat) : (tickUpTo t n s).bufAt q = s.bufAt q := by simp [State.bufAt]
@[simp] theorem tickUpTo_dutyAt (r : PwmRoute) : (tickUpTo t n s).dutyAt r = s.dutyAt r := by simp [State.dutyAt]

/-- The record of each position after the first `n` positions (R200, R206): those below `n` took exactly one row, chosen from
the state before the `Tick`. -/
theorem tickUpTo_recAt (hn : n ≤ s.recs.length) (q : Nat) :
    (tickUpTo t n s).recAt q =
      if q < n then { s.recAt q with gateState := (gateRow (s.recAt q) t).next } else s.recAt q := by
  induction n with
  | zero => simp
  | succ n ih =>
    have ih := ih (by omega)
    rw [tickUpTo_succ]
    by_cases hq : q = n
    · subst hq
      rw [tickPosition_recAt_self _ _ _ (by simp; omega), ih]
      simp
    · rw [tickPosition_recAt_ne _ _ _ hq, ih]
      have : (q < n + 1) ↔ (q < n) := by omega
      simp [this]

/-- The effects of the first `n` positions, in ascending order of position (R209). -/
theorem tickUpTo_effects (hn : n ≤ s.recs.length) :
    (tickUpTo t n s).effects = s.effects ++
      (List.range n).flatMap (fun p =>
        ((gateRow (s.recAt p) t).edge.map (Effect.gateWrite (s.cfg.entry p).pin)).toList) := by
  induction n with
  | zero => simp
  | succ n ih =>
    have ih := ih (by omega)
    rw [tickUpTo_succ, tickPosition_effects, ih, tickUpTo_recAt t n s (by omega)]
    simp [List.range_succ, List.append_assoc]

/-- The pins stay canonical through a `Tick`. -/
theorem tickUpTo_pins_canonical (h : outCanonical .low s.pins) : outCanonical .low (tickUpTo t n s).pins := by
  induction n with
  | zero => exact h
  | succ n ih =>
    rw [tickUpTo_succ, tickPosition_pins]
    split
    · exact ih
    · exact writeOut_canonical _ _ ih

/-- The level of a pin after one more position. -/
theorem tickUpTo_succ_levelAt (h : outCanonical .low s.pins) (hn : n + 1 ≤ s.recs.length) (g : PinRoute) :
    (tickUpTo t (n + 1) s).levelAt g =
      match (gateRow (s.recAt n) t).edge with
      | none => (tickUpTo t n s).levelAt g
      | some l => if g = (s.cfg.entry n).pin then l else (tickUpTo t n s).levelAt g := by
  rw [tickUpTo_succ, State.levelAt, tickPosition_pins, tickUpTo_recAt t n s (by omega)]
  simp only [lt_irrefl, if_false, tickUpTo_cfg]
  split
  · rfl
  · rw [readOut_writeOut _ _ _ (tickUpTo_pins_canonical t n s h)]; rfl

end

/-! ## `Reset` -/

/-- The state `Reset` leads to (R260). -/
def resetState (s : State) : State :=
  { s with
    curValid := false, cur := 0,
    bufs := s.bufs.map AsmBuf.onReset,
    recs := s.recs.map (fun _ => EventRec.initial s.cfg.resetGateState),
    pins := pinsOnReset s.cfg s.pins }

theorem execReset_eq_next {s t : State} : execReset s = .next t ↔ s.cfg.wellFormed = true ∧ resetState s = t := by
  rw [execReset, onWellFormed_eq_next, Host.Outcome.next.injEq, resetState]

theorem resetState_bufAt (s : State) (p : Nat) : (resetState s).bufAt p = (s.bufAt p).onReset := by
  simp only [State.bufAt, resetState, List.getD_eq_getElem?_getD, List.getElem?_map]
  cases s.bufs[p]? <;> rfl

theorem resetState_recAt {s : State} {p : Nat} (hp : p < s.recs.length) :
    (resetState s).recAt p = EventRec.initial s.cfg.resetGateState := by
  simp [State.recAt, resetState, hp]

theorem pinsFold_canonical {es : List ChannelCfg} {ps : OutRegs Level} (h : outCanonical .low ps) :
    outCanonical .low (es.foldl (fun ps e => writeOut .low ps e.pin .low) ps) := by
  induction es generalizing ps with
  | nil => exact h
  | cons e es ih => exact ih (writeOut_canonical _ _ h)

theorem pinsFold_read {es : List ChannelCfg} {ps : OutRegs Level} (h : outCanonical .low ps) (g : PinRoute) :
    readOut .low (es.foldl (fun ps e => writeOut .low ps e.pin .low) ps) g =
      if ∃ e ∈ es, e.pin = g then .low else readOut .low ps g := by
  induction es generalizing ps with
  | nil => simp
  | cons e es ih =>
    rw [List.foldl_cons, ih (writeOut_canonical _ _ h), readOut_writeOut _ _ _ h]
    by_cases hg : g = e.pin
    · simp [hg]
    · simp [hg, Ne.symm hg]

theorem pinsFold_mem {es : List ChannelCfg} {ps : OutRegs Level} {x : Nat × Level}
    (hx : x ∈ es.foldl (fun ps e => writeOut .low ps e.pin .low) ps) : x ∈ ps := by
  induction es generalizing ps with
  | nil => exact hx
  | cons e es ih =>
    rcases mem_writeOut (ih hx) with ⟨-, hne⟩ | hm
    · exact absurd rfl hne
    · exact hm

/-- Every pin the configuration names is LOW after `Reset`; the others are as before (R260). -/
theorem resetState_levelAt {s : State} (h : outCanonical .low s.pins) (g : PinRoute) :
    (resetState s).levelAt g = if ∃ e ∈ s.cfg.chans, e.pin = g then .low else s.levelAt g := pinsFold_read h g

end Sys2Proof.Machine
end

