-- ==== Sys2Proof/Laws/PerInstr.lean ====
section
/-! SUPPORT. Statements about every instruction as syntax, one lemma a constructor. Family `WireWidth`: an encoded instruction
has as many bytes as its row of spec/opcode_table.json has bits, and bit 7 of its first byte is clear for a data byte only
(spec 30_encoding.md R100, R105). -/
namespace Sys2Proof

/-- The "width" of an instruction's row in spec/opcode_table.json. -/
def Instr.tableWidth : Instr → Nat
  | .data _ => 8
  | .stNote _ => 8
  | .stGate _ => 8
  | .rsvAB _ => 8
  | .rsvCF _ => 8
  | .note _ _ => 16
  | .gate _ _ => 24

/-- Whether the instruction is a lone data byte. -/
def Instr.isData : Instr → Bool
  | .data _ => true
  | .stNote _ => false
  | .stGate _ => false
  | .rsvAB _ => false
  | .rsvCF _ => false
  | .note _ _ => false
  | .gate _ _ => false

def Laws.WireWidth.Statement (i : Instr) : Prop :=
  8 * (encode i).length = i.tableWidth ∧ ∃ b bs, encode i = b :: bs ∧ isDataByte b = i.isData

theorem Laws.WireWidth.data (d : Payload) : Laws.WireWidth.Statement (.data d) :=
  ⟨rfl, _, _, rfl, isDataByte_dataVal d⟩

theorem Laws.WireWidth.stNote (c : ChanId) : Laws.WireWidth.Statement (.stNote c) :=
  ⟨rfl, _, _, rfl, isDataByte_status_note c⟩

theorem Laws.WireWidth.stGate (c : ChanId) : Laws.WireWidth.Statement (.stGate c) :=
  ⟨rfl, _, _, rfl, isDataByte_status_gate c⟩

theorem Laws.WireWidth.rsvAB (x : BitVec 5) : Laws.WireWidth.Statement (.rsvAB x) :=
  ⟨rfl, _, _, rfl, (by decide : ∀ x : BitVec 5, isDataByte (0b101#3 ++ x) = false) x⟩

theorem Laws.WireWidth.rsvCF (x : BitVec 6) : Laws.WireWidth.Statement (.rsvCF x) :=
  ⟨rfl, _, _, rfl, (by decide : ∀ x : BitVec 6, isDataByte (0b11#2 ++ x) = false) x⟩

theorem Laws.WireWidth.note (c : ChanId) (n : Payload) : Laws.WireWidth.Statement (.note c n) :=
  ⟨rfl, _, _, rfl, isDataByte_status_note c⟩

theorem Laws.WireWidth.gate (c : ChanId) (d : Duration) : Laws.WireWidth.Statement (.gate c d) :=
  ⟨rfl, _, _, rfl, isDataByte_status_gate c⟩

end Sys2Proof
end

