-- ==== Sys2Proof/Laws/Step.lean ====
section
/-! SUPPORT. What a step can do, and the induction principle over the byte events an instruction is made of. -/
namespace Sys2Proof.Machine

/-! ## The four kinds of step -/

theorem step_idle {s : State} (h : s.input = []) : step s = .next s := by simp [step, h]

theorem step_reset {s : State} {rest : List Input} (h : s.input = .reset :: rest) :
    step s = execReset (s.takeEvent s.now rest) := by simp [step, h]

theorem step_tick {s : State} {t : Time} {rest : List Input} (h : s.input = .tick t :: rest) :
    step s = execTick (s.takeEvent t rest) := by simp [step, h]

theorem step_emptyFeed {s : State} {rest : List Input} (h : s.input = .feed [] :: rest) :
    step s = .next (s.takeEvent s.now rest) := by simp [step, h, decode]

theorem step_feed {s : State} {bytes : List StampedByte} {rest : List Input} {i : Instr} {r : List Byte}
    (h : s.input = .feed bytes :: rest) (hd : decode (bytes.map (·.byte)) = .instr i r) :
    step s = exec i (s.takeBytes i.byteLen bytes rest) := by simp [step, h, hd]

/-- The decoder rejects only the empty sequence. -/
theorem decode_cons (b : Byte) (bs : List Byte) : ∃ i rest, decode (b :: bs) = .instr i rest := by
  unfold decode
  simp only
  split <;> exact ⟨_, _, rfl⟩

/-- Everything a step is. -/
theorem step_cases (s : State) :
    (s.input = [] ∧ step s = .next s) ∨
    (∃ rest, s.input = .reset :: rest ∧ step s = execReset (s.takeEvent s.now rest)) ∨
    (∃ t rest, s.input = .tick t :: rest ∧ step s = execTick (s.takeEvent t rest)) ∨
    (∃ rest, s.input = .feed [] :: rest ∧ step s = .next (s.takeEvent s.now rest)) ∨
    (∃ b bs rest i r, s.input = .feed (b :: bs) :: rest ∧ decode ((b :: bs).map (·.byte)) = .instr i r ∧
      step s = exec i (s.takeBytes i.byteLen (b :: bs) rest)) := by
  cases hi : s.input with
  | nil => exact .inl ⟨rfl, step_idle hi⟩
  | cons x rest =>
    cases x with
    | reset => exact .inr (.inl ⟨rest, rfl, step_reset hi⟩)
    | tick t => exact .inr (.inr (.inl ⟨t, rest, rfl, step_tick hi⟩))
    | feed bytes =>
      cases bytes with
      | nil => exact .inr (.inr (.inr (.inl ⟨rest, rfl, step_emptyFeed hi⟩)))
      | cons b bs =>
        obtain ⟨i, r, hd⟩ := decode_cons b.byte (bs.map (·.byte))
        exact .inr (.inr (.inr (.inr ⟨b, bs, rest, i, r, rfl, hd, step_feed hi hd⟩)))

/-! ## Several steps -/

/-- `k` steps, in the model's own words. -/
def runSteps : Nat → State → Result
  | 0, s => .next s
  | k + 1, s => andThen (step s) (runSteps k)

theorem host_run_succ (M : Host.Core) (k : Nat) (s : M.State) :
    M.run (k + 1) s = match M.step s with
      | .next s' => M.run k s'
      | .fault r => .fault r
      | .refused r => .refused r := by rfl

/-- The host's `run` is `runSteps`. -/
theorem core_run (k : Nat) (s : State) : Host.Core.run Sys2Proof.core k s = runSteps k s := by
  induction k generalizing s with
  | zero => rfl
  | succ k ih =>
    refine (host_run_succ Sys2Proof.core k s).trans ?_
    rw [runSteps]
    cases h : Sys2Proof.core.step s with
    | next u =>
      have h' : step s = .next u := h
      rw [h']
      exact ih u
    | fault r =>
      have h' : step s = .fault r := h
      rw [h']
      rfl
    | refused r =>
      have h' : step s = .refused r := h
      rw [h']
      rfl

theorem runSteps_add (j k : Nat) (s : State) : runSteps (j + k) s = andThen (runSteps j s) (runSteps k) := by
  induction j generalizing s with
  | zero => rw [Nat.zero_add]; rfl
  | succ j ih =>
    rw [Nat.add_right_comm, runSteps, runSteps, andThen_assoc]
    congr 1
    funext u
    exact ih u

/-! ## Preservation -/

/-- What the two byte events that change something preserve, every instruction preserves. -/
theorem exec_preserves {P : State → Prop}
    (hs : ∀ k c s t, P s → statusByte k c s = .next t → P t)
    (hd : ∀ b s t, isDataByte b = true → P s → dataByte b s = .next t → P t)
    {i : Instr} {s t : State} (h : P s) (he : exec i s = .next t) : P t := by
  have hd' : ∀ d s t, P s → dataByte (dataVal d) s = .next t → P t :=
    fun d s t => hd _ s t (isDataByte_dataVal d)
  cases i with
  | data d => exact hd' d _ _ h he
  | stNote c => exact hs .note c _ _ h he
  | stGate c => exact hs .gate c _ _ h he
  | rsvAB x => obtain ⟨-, he⟩ := onWellFormed_eq_next.mp he; cases he; exact h
  | rsvCF x => obtain ⟨-, he⟩ := onWellFormed_eq_next.mp he; cases he; exact h
  | note c n =>
    obtain ⟨s1, h1, h2⟩ := andThen_eq_next.mp he
    exact hd' n _ _ (hs .note c _ _ h h1) h2
  | gate c d =>
    obtain ⟨s1, h1, h2⟩ := andThen_eq_next.mp he
    obtain ⟨s2, h2, h3⟩ := andThen_eq_next.mp h2
    exact hd' _ _ _ (hd' _ _ _ (hs .gate c _ _ h h1) h2) h3

/-- What taking an event, the byte events, `Tick` and `Reset` preserve, every step preserves. -/
theorem step_preserves {P : State → Prop}
    (htake : ∀ (s : State) t input, P s → P (s.takeEvent t input))
    (hs : ∀ k c s t, P s → statusByte k c s = .next t → P t)
    (hd : ∀ b s t, isDataByte b = true → P s → dataByte b s = .next t → P t)
    (ht : ∀ s t, P s → execTick s = .next t → P t)
    (hr : ∀ s t, P s → execReset s = .next t → P t)
    {s s' : State} (h : P s) (he : step s = .next s') : P s' := by
  rcases step_cases s with ⟨-, e⟩ | ⟨rest, -, e⟩ | ⟨t, rest, -, e⟩ | ⟨rest, -, e⟩ | ⟨b, bs, rest, i, r, -, -, e⟩
  · rw [e] at he; cases he; exact h
  · exact hr _ _ (htake _ _ _ h) (e ▸ he)
  · exact ht _ _ (htake _ _ _ h) (e ▸ he)
  · rw [e] at he; cases he; exact htake _ _ _ h
  · exact exec_preserves hs hd (htake _ _ _ h) (e ▸ he)

end Sys2Proof.Machine
end

