-- ==== Sys2Proof/Tests/Slice0.lean ====
section
/-! SUPPORT. Tests on fixed values, and one witness for the hypotheses of each statement. Expected results are from
spec/95_test_vectors.md (sections 2 and 3) and from the encodings of spec/30_encoding.md. -/
namespace Sys2Proof.Tests
open Sys2Proof Sys2Proof.Machine

/-! ## Helpers -/

/-- The answer is a next state with this property. -/
def nextIs (o : Result) (p : State → Bool) : Bool :=
  match o with
  | .next s => p s
  | _ => false

/-- The answer is this refusal. -/
def refusedAs (o : Result) (r : Refusal) : Bool :=
  match o with
  | .refused r' => decide (r' = r)
  | _ => false

theorem next_of_nextIs {o : Result} {p : State → Bool} (h : nextIs o p = true) : ∃ t, o = .next t := by
  cases o with
  | next t => exact ⟨t, rfl⟩
  | fault r => exact r.rec
  | refused r => exact absurd (show false = true from h) (by decide)

theorem refused_of_refusedAs {o : Result} {r : Refusal} (h : refusedAs o r = true) : o = .refused r := by
  cases o with
  | next t => exact absurd (show false = true from h) (by decide)
  | fault r => exact r.rec
  | refused r' => rw [of_decide_eq_true (show decide (r' = r) = true from h)]

/-- The state after reset with channel `c` latched and the buffer of position `p` holding `units` (then unwritten slots). -/
def openAt (c : ChanId) (p : Nat) (w : Fin CAP) (u0 u1 : MsgUnit) : State :=
  { State.reset with
    curValid := true, cur := c,
    bufs := State.reset.bufs.set p { widx := w, slots := #v[u0, u1, MsgUnit.unwritten] } }

/-- Position 2 (channel 5) in the sequencing state `N1`. -/
def n1on5 : State := openAt 5 2 1 ⟨.note, 0x85⟩ .unwritten
/-- Position 1 (channel 1) in `G1`. -/
def g1on1 : State := openAt 1 1 1 ⟨.gate, 0x91⟩ .unwritten
/-- Position 1 (channel 1) in `G2`, its first data byte being `0x01`. -/
def g2on1 : State := openAt 1 1 2 ⟨.gate, 0x91⟩ ⟨.data, 0x01⟩
/-- Channel 5 latched, no command open. -/
def idleOn5 : State := { State.reset with curValid := true, cur := 5 }
/-- Unconfigured channel 2 latched. -/
def latched2 : State := { State.reset with curValid := true, cur := 2 }
/-- The state after reset with one record changed. -/
def withRec (p : Nat) (s e : Time) (g : GateState) : State :=
  { State.reset with recs := State.reset.recs.set p ⟨0, g, s, e⟩ }
/-- A state in the middle of things: a pulse runs on channel 0, a note has been played, a GATE is open on channel 1. -/
def live : State :=
  { g2on1 with recs := [⟨61, .running, 1000, 1100⟩, ⟨0, .finished, 0, 0⟩, ⟨4, .notStarted, 2000, 2000⟩],
               pwm := [(0, 80), (2, 9)], pins := [(0, .high)], now := 1050 }

/-- A configuration with 17 channels, which also has a repeated identifier. -/
def tooMany : Config := { Config.testcfg with chans := List.replicate 17 ⟨0, 0, 0, [1]⟩ }
/-- A configuration with a repeated identifier. -/
def repeated : Config := { Config.testcfg with chans := [⟨3, 0, 0, [1]⟩, ⟨3, 1, 1, [1]⟩] }
/-- A configuration with an empty table. -/
def emptyTable : Config := { Config.testcfg with chans := [⟨3, 0, 0, []⟩] }
/-- A state with an ill-formed configuration. -/
def illFormed : State := State.resetWith emptyTable

/-! ## Well-formedness (R7): one ill-formed term for each check -/

theorem test_testcfg_wellFormed : Config.testcfg.wellFormed = true := by decide
theorem test_no_channels_wellFormed : ({ chans := [], resetGateState := .finished } : Config).wellFormed = true := by decide
theorem test_tooMany_refused : tooMany.fewChannels = false ∧ tooMany.wellFormed = false := by decide
theorem test_repeated_refused : repeated.distinctChannels = false ∧ repeated.fewChannels = true ∧
    repeated.tablesNonempty = true ∧ repeated.wellFormed = false := by decide
theorem test_emptyTable_refused : emptyTable.tablesNonempty = false ∧ emptyTable.fewChannels = true ∧
    emptyTable.distinctChannels = true ∧ emptyTable.wellFormed = false := by decide

/-! ## Decoding: words written out from R101 to R104 -/

theorem test_decode_data : decodeTableWord 8 0b01111111 = some (.data 127) := by decide
theorem test_decode_stNote : decodeTableWord 8 0b10001111 = some (.stNote 15) := by decide
theorem test_decode_stGate : decodeTableWord 8 0b10010101 = some (.stGate 5) := by decide
theorem test_decode_rsvAB : decodeTableWord 8 0b10111111 = some (.rsvAB 31) := by decide
theorem test_decode_rsvCF : decodeTableWord 8 0b11000000 = some (.rsvCF 0) := by decide
/-- Program P3: `NOTE 5, 127` is `85 7F`. -/
theorem test_decode_note : decodeTableWord 16 0b1000010101111111 = some (.note 5 127) := by decide
/-- Program P3: `GATE 5, 1000` is `95 07 68`. -/
theorem test_decode_gate : decodeTableWord 24 0b100101010000011101101000 = some (.gate 5 1000) := by decide
/-- Encoding of program P1: `80 3D 90 00 64`. -/
theorem test_encode_P1 : encode (.note 0 61) ++ encode (.gate 0 100) = [0x80, 0x3D, 0x90, 0x00, 0x64] := by decide
/-- A second status byte makes the first one a byte of its own. -/
theorem test_decode_interrupted : decode [0x80, 0x91, 0x05] = .instr (.stNote 0) [0x91, 0x05] := by decide
/-- A reserved byte inside a frame leaves the status byte alone (R104, "skipped"). -/
theorem test_decode_split_gate : decode [0x95, 0x7F, 0xC0, 0x7F] = .instr (.stGate 5) [0x7F, 0xC0, 0x7F] := by decide
theorem test_decode_nothing : decode [] = .noByte := by decide
/-- Vectors 2.2. -/
theorem test_gatePayload : gatePayload 0x2A 0x55 = 5461 ∧ gatePayload 0x07 0x68 = 1000 ∧ gatePayload 0x7F 0x7F = 16383 := by decide

/-! ## The byte instructions: vectors 2.3 -/

theorem test_data_completes_note : nextIs (exec (.data 4) n1on5) (fun t =>
    decide ((t.bufAt 2).widx = 0 ∧ (t.bufAt 2).slots[1] = ⟨.data, 4⟩ ∧ (t.recAt 2).noteValue = 4 ∧ t.dutyAt 2 = 9 ∧
      t.effects = [.callNote 5 4, .pwmWrite 2 9])) = true := by decide
theorem test_data_completes_gate : nextIs (exec (.data 2) { g2on1 with now := 2005 }) (fun t =>
    decide ((t.bufAt 1).widx = 0 ∧ t.recAt 1 = ⟨0, .notStarted, 2005, 2135⟩ ∧ t.effects = [.callGate 1 130])) = true := by
  decide
theorem test_stNote_opens : nextIs (exec (.stNote 5) State.reset) (fun t =>
    decide (t.curValid = true ∧ t.cur = 5 ∧ (t.bufAt 2).slots[0] = ⟨.note, 0x85⟩ ∧ t.bufs.map (·.widx) = [0, 0, 1] ∧
      t.effects = [])) = true := by decide
theorem test_stNote_aborts_gate : nextIs (exec (.stNote 1) g2on1) (fun t =>
    decide ((t.bufAt 1).slots[0] = ⟨.note, 0x81⟩ ∧ (t.bufAt 1).widx = 1 ∧ t.effects = [])) = true := by decide
theorem test_stGate_aborts_note : nextIs (exec (.stGate 5) n1on5) (fun t =>
    decide ((t.bufAt 2).slots[0] = ⟨.gate, 0x95⟩ ∧ (t.bufAt 2).widx = 1 ∧ t.effects = [])) = true := by decide
theorem test_stGate_leaves_other_open : nextIs (exec (.stGate 0) g2on1) (fun t =>
    decide (t.cur = 0 ∧ t.bufs.map (·.widx) = [1, 2, 0] ∧ t.bufAt 1 = g2on1.bufAt 1)) = true := by decide
theorem test_rsvAB_skipped : nextIs (exec (.rsvAB 5) g2on1) (fun t => decide (t = g2on1)) = true := by decide
theorem test_rsvCF_skipped : nextIs (exec (.rsvCF 63) g2on1) (fun t => decide (t = g2on1)) = true := by decide

/-! ## The frames: vectors 2.4 -/

theorem test_note_wraps_table : nextIs (exec (.note 1 127) State.reset) (fun t =>
    decide ((t.recAt 1).noteValue = 127 ∧ t.dutyAt 1 = 208 ∧ t.effects = [.callNote 1 127, .pwmWrite 1 208])) = true := by
  decide
theorem test_note_unconfigured : nextIs (exec (.note 3 16) State.reset) (fun t =>
    decide (t = { State.reset with curValid := true, cur := 3 })) = true := by decide
/-- `Byte(0x90, 990)`, `Byte(0x00, 995)`, `Byte(0x64, 1000)` in one call. -/
theorem test_gate_last_sample : nextIs (step { State.reset with input := [.feed [⟨0x90, 990⟩, ⟨0x00, 995⟩, ⟨0x64, 1000⟩]] })
    (fun t => decide (t.recAt 0 = ⟨0, .notStarted, 1000, 1100⟩ ∧ t.pins = [] ∧ t.effects = [.callGate 0 100] ∧
      t.input = [])) = true := by decide
theorem test_gate_longest : nextIs (exec (.gate 5 16383) { State.reset with now := 2017 }) (fun t =>
    decide (t.recAt 2 = ⟨0, .notStarted, 2017, 18400⟩ ∧ t.effects = [.callGate 5 16383])) = true := by decide

/-! ## The scheduler operations: vectors 2.5, 2.6 -/

theorem test_setNoteEvent_no_mask : nextIs (setNoteEvent 5 128 State.reset) (fun t =>
    decide ((t.recAt 2).noteValue = 128 ∧ t.dutyAt 2 = 11)) = true := by decide
theorem test_setNoteEvent_at_boundary : nextIs (setNoteEvent 5 3 State.reset) (fun t =>
    decide ((t.recAt 2).noteValue = 3 ∧ t.dutyAt 2 = 7)) = true := by decide
theorem test_setGateEvent_largest_sample : nextIs (setGateEvent 5 16383 4294950912 State.reset) (fun t =>
    decide (t.recAt 2 = ⟨0, .notStarted, 4294950912, 4294967295⟩)) = true := by decide
theorem test_setGateEvent_overflow : refusedAs (setGateEvent 5 16383 4294950913 State.reset) .timestampOverflow = true := by
  decide
theorem test_setGateEvent_rearms : nextIs (setGateEvent 0 1000 1040 (withRec 0 1000 1100 .running)) (fun t =>
    decide (t.recAt 0 = ⟨0, .notStarted, 1040, 2040⟩ ∧ t.pins = [])) = true := by decide

/-! ## Tick: vectors 2.7 -/

theorem test_tick_waits : nextIs (execTick { withRec 0 1000 1100 .notStarted with now := 999 }) (fun t =>
    decide (t.recAt 0 = ⟨0, .notStarted, 1000, 1100⟩ ∧ t.effects = [])) = true := by decide
theorem test_tick_not_collapsed : nextIs (execTick { withRec 0 1000 1100 .notStarted with now := 5000 }) (fun t =>
    decide (t.recAt 0 = ⟨0, .running, 1000, 1100⟩ ∧ t.levelAt 0 = .high ∧ t.effects = [.gateWrite 0 .high])) = true := by
  decide
theorem test_tick_holds : nextIs (execTick { withRec 0 1000 1100 .running with now := 1099 }) (fun t =>
    decide (t.recAt 0 = ⟨0, .running, 1000, 1100⟩ ∧ t.effects = [])) = true := by decide
theorem test_tick_ends : nextIs (execTick { withRec 2 1000 1100 .running with now := 1100, pins := [(5, Level.high)] }) (fun t =>
    decide (t.recAt 2 = ⟨0, .finished, 1000, 1100⟩ ∧ t.pins = [] ∧ t.effects = [.gateWrite 5 .low])) = true := by decide
theorem test_tick_finished : nextIs (execTick { State.reset with now := 4294967295 }) (fun t =>
    decide (t = { State.reset with now := 4294967295 })) = true := by decide
/-- Program P4, `Tick(103)`: both rising edges, in ascending order of position. -/
theorem test_tick_order : nextIs (execTick { State.reset with
      now := 103, recs := [⟨0, .notStarted, 100, 110⟩, ⟨0, .notStarted, 102, 107⟩, ⟨0, .finished, 0, 0⟩] }) (fun t =>
    decide (t.effects = [.gateWrite 0 .high, .gateWrite 1 .high] ∧ t.pins = [(0, .high), (1, .high)])) = true := by decide

/-! ## Reset: vector 2.8 -/

theorem test_reset_event : nextIs (execReset { live with cur := 5 }) (fun t =>
    decide (t.curValid = false ∧ t.cur = 0 ∧ t.bufs.map (·.widx) = [0, 0, 0] ∧
      t.recs = State.reset.recs ∧ t.pins = [] ∧ t.effects = [])) = true := by decide

/-! ## The host's words -/

theorem test_fetch_note : nextIs (step (State.reset.withFetchWord 16 0x8000)) (fun t =>
    decide (t.effects = [.callNote 0 0, .pwmWrite 0 16] ∧ t.input = [])) = true := by decide
theorem test_fetch_gate : nextIs (step (State.reset.withFetchWord 24 0x900000)) (fun t =>
    decide (t.effects = [.callGate 0 0] ∧ t.input = [])) = true := by decide
theorem test_fetch_stNote : nextIs (step (State.reset.withFetchWord 8 0x80)) (fun t =>
    decide ((t.bufAt 0).widx = 1 ∧ t.input = [])) = true := by decide

/-! ## Witnesses: states of the invariant -/

theorem ready_reset : State.reset.Ready := ⟨by decide, by decide, by decide⟩
theorem ready_live : live.Ready := ⟨by decide, by decide, by decide⟩

theorem inv_live : live.Inv where
  shape := ⟨by decide, by decide⟩
  framed := fun p hp => by
    match p with
    | 0 => exact .inl rfl
    | 1 => exact .inr (.inr (.inr ⟨rfl, rfl, rfl, rfl⟩))
    | 2 => exact .inl rfl
    | n + 3 => exact absurd (show n + 3 < 3 from hp) (by omega)
  latched := fun h => absurd h (by decide)
  ordered := by decide
  duties := by decide
  levels := by decide
  dutyRoutes := by decide
  pinRoutes := by decide

theorem distinctPins_live : live.DistinctPins := by
  show ∀ p < 3, ∀ q < 3, (live.cfg.entry p).pin = (live.cfg.entry q).pin → p = q
  decide

theorem pinsFollow_live : live.PinsFollow := by
  show ∀ p < 3, ((live.recAt p).gateState = .running → live.levelAt (live.cfg.entry p).pin = .high) ∧
    ((live.recAt p).gateState = .finished → live.levelAt (live.cfg.entry p).pin = .low)
  decide

/-! ## Witnesses for the hypotheses of the statements -/

theorem witness_DecodeOfEncodeIsTheInstruction :
    (∀ c b bs, Instr.stNote 5 = .stNote c → [(0x91 : Byte), 0x05] = b :: bs → isDataByte b = false) ∧
    (∀ c b b' bs, Instr.stGate 5 = .stGate c → [(0x05 : Byte), 0x80] = b :: b' :: bs →
      ¬(isDataByte b = true ∧ isDataByte b' = true)) ∧
    (∀ c b b' bs, Instr.stGate 5 = .stGate c → [(0x05 : Byte)] = b :: b' :: bs →
      ¬(isDataByte b = true ∧ isDataByte b' = true)) := by
  refine ⟨?_, ?_, ?_⟩
  · intro c b bs _ h; cases h; decide
  · intro c b b' bs _ h; cases h; decide
  · intro c b b' bs _ h; cases h

theorem witness_DecodeLosesNoBit : decode [0x91, 0x01, 0x02, 0x03] = .instr (.gate 1 130) [0x03] := by decide

theorem witness_GatePayload : isDataByte 0x7F = true ∧ isDataByte 0x00 = true := by decide

theorem witness_StepRunsTheDecodedInstruction :
    ∃ s : State, s.input = .feed [⟨0x81, 10⟩, ⟨0x05, 11⟩, ⟨0x06, 12⟩] :: [.tick 12] ∧
      decode (([⟨0x81, 10⟩, ⟨0x05, 11⟩, ⟨0x06, 12⟩] : List StampedByte).map (·.byte)) = .instr (.note 1 5) [0x06] :=
  ⟨{ live with input := [.feed [⟨0x81, 10⟩, ⟨0x05, 11⟩, ⟨0x06, 12⟩], .tick 12] }, rfl, by decide⟩

theorem witness_StepTakesTheOtherEvents :
    ({ live with input := [.reset, .tick 7] } : State).input = .reset :: [.tick 7] ∧
    ({ live with input := [.tick 7] } : State).input = .tick 7 :: [] ∧
    ({ live with input := [.feed []] } : State).input = .feed [] :: [] ∧ live.input = [] := ⟨rfl, rfl, rfl, rfl⟩

theorem witness_StepRunsTheFetchWord :
    decode (wordBytes 8 0xFF) = .instr (.rsvCF 63) [] ∧ decode (wordBytes 16 0x853C) = .instr (.note 5 60) [] ∧
    decode (wordBytes 24 0x9F7F7F) = .instr (.gate 15 16383) [] := by decide

/-- Also of `StGateOpensAGate`, `UnknownChannelIsInert` (with `latched2.cur = 2`), `SetNoteEventWritesTheDuty`,
`NoteFrameSetsTheNote`, `ReservedByteChangesNothing`: a configured and an unconfigured channel. -/
theorem witness_StNoteOpensANote :
    live.Ready ∧ lookup live.cfg 2 = none ∧ lookup live.cfg 15 = none ∧ lookup live.cfg 0 = some 0 ∧
      lookup live.cfg 5 = some 2 ∧ latched2.cfg.wellFormed = true ∧ latched2.cur = 2 :=
  ⟨ready_live, by decide, by decide, by decide, by decide, by decide, rfl⟩

theorem witness_StrayDataByteChangesNothing :
    State.reset.cfg.wellFormed = true ∧ State.reset.curValid = false ∧
    lookup latched2.cfg latched2.cur = none ∧
    lookup idleOn5.cfg idleOn5.cur = some 2 ∧ (idleOn5.bufAt 2).widx = 0 := by decide

theorem witness_DataByteIsStoredInAnOpenCommand :
    g1on1.Ready ∧ g1on1.curValid = true ∧ lookup g1on1.cfg g1on1.cur = some 1 ∧ (g1on1.bufAt 1).widx ≠ 0 ∧
    ¬((g1on1.bufAt 1).widx = 1 ∧ (g1on1.bufAt 1).slots[0].tag = .note) ∧
    ¬((g1on1.bufAt 1).widx = 2 ∧ (g1on1.bufAt 1).slots[0].tag = .gate) :=
  ⟨⟨by decide, by decide, by decide⟩, rfl, by decide, by decide, by decide, by decide⟩

theorem witness_DataByteCompletesANote :
    n1on5.Ready ∧ n1on5.curValid = true ∧ lookup n1on5.cfg n1on5.cur = some 2 ∧ (n1on5.bufAt 2).widx = 1 ∧
    (n1on5.bufAt 2).slots[0].tag = .note :=
  ⟨⟨by decide, by decide, by decide⟩, rfl, by decide, rfl, rfl⟩

/-- The largest window that fits, and the smallest that does not (vectors 2.6): the second data byte is `0x7F`. -/
theorem witness_DataByteCompletesAGate :
    let s : State := { openAt 1 1 2 ⟨.gate, 0x91⟩ ⟨.data, 0x7F⟩ with now := 4294950912 }
    let dur : Duration := 16383
    let d : Payload := 127
    (s.Ready ∧ s.curValid = true ∧ lookup s.cfg s.cur = some 1 ∧ (s.bufAt 1).widx = 2 ∧ (s.bufAt 1).slots[0].tag = .gate) ∧
    dur.toNat = ((s.bufAt 1).slots[1].val.toNat % 128) * 128 + d.toNat ∧
    s.now.toNat + dur.toNat < 2 ^ 32 ∧
    2 ^ 32 ≤ ({ s with now := 4294950913 } : State).now.toNat + dur.toNat :=
  ⟨⟨⟨by decide, by decide, by decide⟩, rfl, by decide, rfl, rfl⟩, by decide, by decide, by decide⟩

/-- Each of the four sequencing states, and another channel. -/
theorem witness_BufferFollowsTheTransitionTable :
    (idleOn5.Ready ∧ timely idleOn5.now ∧ idleOn5.curValid = true ∧ lookup idleOn5.cfg idleOn5.cur = some 2 ∧
      (idleOn5.bufAt 2).widx = 0) ∧
    (n1on5.Ready ∧ timely n1on5.now ∧ lookup n1on5.cfg n1on5.cur = some 2 ∧ (n1on5.bufAt 2).widx = 1 ∧
      (n1on5.bufAt 2).slots[0].tag = .note) ∧
    (g1on1.Ready ∧ timely g1on1.now ∧ lookup g1on1.cfg g1on1.cur = some 1 ∧ (g1on1.bufAt 1).widx = 1 ∧
      (g1on1.bufAt 1).slots[0].tag = .gate) ∧
    (g2on1.Ready ∧ timely g2on1.now ∧ lookup g2on1.cfg g2on1.cur = some 1 ∧ (g2on1.bufAt 1).widx = 2 ∧
      (g2on1.bufAt 1).slots[0].tag = .gate) ∧
    (lookup g2on1.cfg 5 = some 2 ∧ (1 : ChanId) ≠ 5 ∧ ¬(g2on1.curValid = true ∧ g2on1.cur = 5)) := by
  refine ⟨⟨⟨?_, ?_, ?_⟩, ?_, ?_, ?_, ?_⟩, ⟨⟨?_, ?_, ?_⟩, ?_, ?_, ?_, ?_⟩, ⟨⟨?_, ?_, ?_⟩, ?_, ?_, ?_, ?_⟩,
    ⟨⟨?_, ?_, ?_⟩, ?_, ?_, ?_, ?_⟩, ?_, ?_, ?_⟩ <;> first | decide | (unfold timely; decide)

theorem witness_GateFrameArmsThePulse :
    ({ live with now := 4294950912 } : State).Ready ∧ lookup live.cfg 5 = some 2 ∧
    (4294950912 : Time).toNat + (16383 : Duration).toNat < 2 ^ 32 ∧
    2 ^ 32 ≤ (4294950913 : Time).toNat + (16383 : Duration).toNat :=
  ⟨⟨by decide, by decide, by decide⟩, by decide, by decide, by decide⟩

theorem witness_GateFrameReadsItsLastSample :
    let s : State := { live with input := [.feed [⟨0x90, 990⟩, ⟨0x00, 995⟩, ⟨0x64, 1000⟩]] }
    s.Ready ∧ lookup s.cfg 0 = some 0 ∧ (1000 : Time).toNat + (100 : Duration).toNat < 2 ^ 32 ∧
    s.input = .feed [⟨BitVec.ofNat 8 (0x90 + (0 : ChanId).toNat), 990⟩, ⟨BitVec.ofNat 8 ((100 : Duration).toNat / 128), 995⟩,
      ⟨BitVec.ofNat 8 ((100 : Duration).toNat % 128), 1000⟩] :: [] :=
  ⟨⟨by decide, by decide, by decide⟩, by decide, by decide, by decide⟩

/-- `live` is in the middle of a GATE on channel 1; the last clause is the largest sample at which every window fits. Also of
`DataBytesGoToTheLatchedChannel` and `UnconfiguredStatusByteTakesTheDataAway`. -/
theorem witness_InterruptedCommandLeavesNoTrace :
    live.Ready ∧ timely live.now ∧ (0 : ChanId) ≠ 1 ∧ lookup live.cfg 0 = some 0 ∧ lookup live.cfg 1 = some 1 ∧
      lookup live.cfg 2 = none ∧ live.now.toNat + (100 : Duration).toNat < 2 ^ 32 ∧
      ({ live with now := 4294950912 } : State).now.toNat + (16383 : Duration).toNat < 2 ^ 32 :=
  ⟨ready_live, by unfold timely; decide, by decide, by decide, by decide, by decide, by decide, by decide⟩

theorem witness_LookupIsTheLeastPosition :
    lookup repeated 3 = some 0 ∧ lookup repeated 4 = none ∧ Config.testcfg.wellFormed = true ∧
      2 < Config.testcfg.nch ∧ (Config.testcfg.entry 2).chan = 5 := by decide

theorem witness_SetGateEventArmsTheWindow :
    lookup live.cfg 2 = none ∧ lookup live.cfg 5 = some 2 ∧
    (4294950912 : Time).toNat + (16383 : Duration).toNat < 2 ^ 32 ∧
    2 ^ 32 ≤ (4294950913 : Time).toNat + (16383 : Duration).toNat := by decide

theorem witness_DutyRegisterHoldsTheLastWrite :
    live.Inv ∧ live.cfg.wellFormed = true ∧ lookup live.cfg 5 = some 2 := ⟨inv_live, by decide, by decide⟩

/-- `live` has a position in each of the three gate states (also of `TickAppliesTheTransitionTable`). -/
theorem witness_TickDrivesThePins : live.Inv ∧ live.Ready ∧ ∃ t, execTick live = .next t :=
  ⟨inv_live, ready_live, next_of_nextIs (p := fun _ => true) (by decide)⟩

theorem witness_ZeroLengthGateTakesTwoTicks :
    live.Ready ∧ lookup live.cfg 5 = some 2 ∧ (500 : Time) ≤ 500 := ⟨ready_live, by decide, by decide⟩

theorem witness_RearmingPreemptsTheRunningPulse :
    live.Ready ∧ lookup live.cfg 0 = some 0 ∧ (1040 : Time).toNat + (1000 : Duration).toNat < 2 ^ 32 ∧
      (1040 : Time) ≤ 1041 ∧ (live.recAt 0).gateState = .running := ⟨ready_live, by decide, by decide, by decide, by decide⟩

/-- `live` at 1050: channel 0 runs until 1100, channel 1 is finished, channel 5 starts at 2000. -/
theorem witness_TickBeforeEveryBoundChangesNothing :
    live.cfg.wellFormed = true ∧ (∀ p < live.cfg.nch, (live.recAt p).gateState = .finished ∨
      ((live.recAt p).gateState = .notStarted ∧ live.now < (live.recAt p).gateStart) ∨
      ((live.recAt p).gateState = .running ∧ live.now < (live.recAt p).gateEnd)) := by decide

/-- Also of `ResetPutsTheBlockInItsInitialState`. -/
theorem witness_ResetEventReachesTheResetState : live.Inv ∧ live.cfg.wellFormed = true ∧ ∃ t, execReset live = .next t :=
  ⟨inv_live, by decide, next_of_nextIs (p := fun _ => true) (by decide)⟩

/-- `live` with the last byte of its open GATE pending, and its invariant. -/
def liveByte : State := { live with input := [.feed [⟨0x02, 1051⟩], .tick 2000] }

theorem inv_liveByte : liveByte.Inv := { inv_live with }

/-- Also of `EveryStepKeepsThePinsWithTheGates`, `ConfigurationNeverChanges`, `InstructionsTouchOnlyTheLatchedChannel`. -/
theorem witness_EveryStepKeepsTheInvariant :
    liveByte.Inv ∧ liveByte.DistinctPins ∧ liveByte.cfg.resetGateState ≠ .running ∧ liveByte.PinsFollow ∧
      (∃ t, step liveByte = .next t) ∧ (∃ t, exec (.gate 1 130) liveByte = .next t) :=
  ⟨inv_liveByte, distinctPins_live, by decide, pinsFollow_live, next_of_nextIs (p := fun _ => true) (by decide),
    next_of_nextIs (p := fun _ => true) (by decide)⟩

theorem witness_PinsFollowAfterReset : Config.testcfg.resetGateState ≠ .running := by decide

theorem witness_OnlyResetClearsTheLatch :
    let s : State := { live with input := [.reset] }
    s.curValid = true ∧ nextIs (step s) (fun t => !t.curValid) = true := by decide

/-- A GATE, a `Tick` on each bound, and a `Reset`. -/
theorem witness_GateStateMovesOnlyAroundTheCycle :
    liveByte.Ready ∧
    nextIs (step liveByte) (fun t => decide ((t.recAt 1).gateState ≠ (liveByte.recAt 1).gateState)) = true ∧
    nextIs (step { live with input := [.tick 2000] }) (fun t =>
      decide ((t.recAt 0).gateState ≠ (live.recAt 0).gateState ∧ (t.recAt 2).gateState ≠ (live.recAt 2).gateState)) = true ∧
    nextIs (step { live with input := [.reset] }) (fun t =>
      decide ((t.recAt 0).gateState ≠ (live.recAt 0).gateState)) = true :=
  ⟨⟨by decide, by decide, by decide⟩, by decide, by decide, by decide⟩

/-- The last timely sample of a byte, after a `Tick` at the last sample of all; `timely` is also the premise of
`EveryInstructionCompletes`. -/
theorem witness_EveryStepCompletesUnderTheHostsDuties :
    let s : State := { live with now := 4294967295, input := [.feed [⟨0x7F, 4294950912⟩], .tick 4294967295, .reset] }
    s.cfg.wellFormed = true ∧ (∀ x ∈ s.input, x.Timely) ∧ timely 4294950912 ∧ ¬timely s.now := by
  refine ⟨by decide, ?_, by unfold timely; decide, by unfold timely; decide⟩
  intro x hx
  simp only [List.mem_cons, List.not_mem_nil, or_false] at hx
  rcases hx with rfl | rfl | rfl
  · intro b hb
    cases List.mem_singleton.mp hb
    unfold timely
    decide
  · trivial
  · trivial

/-- The three refusals: the second data byte of an open GATE (`d = 128 + 127 = 255`), a whole GATE frame whose sum is `2^32`
(vectors 2.6), and an ill-formed configuration. -/
theorem witness_StepsStopOnlyForTheSpecsReasons :
    step { live with input := [.feed [⟨0x7F, 4294967295⟩]] } = .refused .timestampOverflow ∧
    step { live with input := [.feed [⟨0x95, 0⟩, ⟨0x7F, 0⟩, ⟨0x7F, 4294950913⟩]] } = .refused .timestampOverflow ∧
    step { illFormed with input := [.tick 0] } = .refused .illFormedConfig :=
  ⟨refused_of_refusedAs (by decide), refused_of_refusedAs (by decide), refused_of_refusedAs (by decide)⟩

theorem witness_IllFormedConfigurationIsRefused : illFormed.cfg.wellFormed = false := by decide

theorem witness_StrayDataNeverReachesTheScheduler :
    let s : State := { State.reset with input := [.feed [⟨0x40, 0⟩, ⟨0x7F, 1⟩, ⟨0x00, 2⟩]] }
    s.cfg.wellFormed = true ∧ s.curValid = false ∧
      (∀ b ∈ ([⟨0x40, 0⟩, ⟨0x7F, 1⟩, ⟨0x00, 2⟩] : List StampedByte), isDataByte b.byte = true) ∧
      s.input = .feed [⟨0x40, 0⟩, ⟨0x7F, 1⟩, ⟨0x00, 2⟩] :: [] := by decide

/-- Two states that differ in `cur` (no status byte since reset), a duty register, `noteValue`, bounds and slots. -/
theorem witness_UnreadStateIsNeverObserved :
    let a : State := State.reset
    let b : State := { State.reset with
      cur := 9, pwm := [(1, 200)], recs := List.replicate 3 ⟨7, .finished, 4, 3⟩,
      bufs := List.replicate 3 { widx := 0, slots := #v[⟨.gate, 1⟩, ⟨.note, 2⟩, ⟨.data, 3⟩] } }
    a.AgreesOnRead b ∧ a ≠ b := by
  refine ⟨⟨rfl, rfl, fun h => absurd h (by decide), rfl, ?_, rfl, ?_, rfl, rfl, rfl, rfl⟩, by decide⟩
  · intro p
    match p with
    | 0 => exact ⟨rfl, fun i hi => absurd hi (Nat.not_lt_zero _)⟩
    | 1 => exact ⟨rfl, fun i hi => absurd hi (Nat.not_lt_zero _)⟩
    | 2 => exact ⟨rfl, fun i hi => absurd hi (Nat.not_lt_zero _)⟩
    | n + 3 => exact ⟨rfl, fun i hi => absurd hi (Nat.not_lt_zero _)⟩
  · intro p
    match p with
    | 0 => exact ⟨rfl, fun h => absurd rfl h, fun h => absurd h (by decide)⟩
    | 1 => exact ⟨rfl, fun h => absurd rfl h, fun h => absurd h (by decide)⟩
    | 2 => exact ⟨rfl, fun h => absurd rfl h, fun h => absurd h (by decide)⟩
    | n + 3 => exact ⟨rfl, fun h => absurd rfl h, fun h => absurd h (fun h => nomatch h)⟩

end Sys2Proof.Tests
end

/-! ## Scope (spec 00_scope.md)

The proofs about R7 and R8: which instruction a step runs, with which sample and what stays pending, and the refusal of an
ill-formed configuration. -/

/-! ### The bytes a decoded instruction was read from (R100, R104) -/

namespace Sys2Proof

open Machine (dataVal)

theorem highNibble_append_lowNibble : ∀ b : Byte, highNibble b ++ lowNibble b = b := by decide

/-- A lone byte loses no bit (R100 to R103). -/
theorem encode_decodeByte : ∀ b : Byte, encode (decodeByte b) = [b] := by decide

/-- A status byte is its nibble and its channel (R101). -/
theorem status_append_lowNibble {k : BitVec 4} {b : Byte} (h : highNibble b = k) : k ++ lowNibble b = b := by
  rw [← h, highNibble_append_lowNibble]

theorem encode_note {b0 b1 : Byte} (h0 : highNibble b0 = 0x8) (h1 : isDataByte b1 = true) :
    encode (.note (lowNibble b0) (lowSeven b1)) = [b0, b1] := by
  change [0x8#4 ++ lowNibble b0, dataVal (lowSeven b1)] = [b0, b1]
  rw [status_append_lowNibble (k := 0x8#4) h0, dataVal_lowSeven b1 h1]

theorem encode_gate {b0 b1 b2 : Byte} (h0 : highNibble b0 = 0x9) (h1 : isDataByte b1 = true)
    (h2 : isDataByte b2 = true) : encode (.gate (lowNibble b0) (lowSeven b1 ++ lowSeven b2)) = [b0, b1, b2] := by
  rw [encode, BitVec.extractLsb'_append_eq_left, BitVec.extractLsb'_append_eq_right]
  change [0x9#4 ++ lowNibble b0, dataVal (lowSeven b1), dataVal (lowSeven b2)] = [b0, b1, b2]
  rw [status_append_lowNibble (k := 0x9#4) h0, dataVal_lowSeven b1 h1, dataVal_lowSeven b2 h2]

/-- The bytes a frame was read from: a status byte with the data bytes its kind asks for (R104). -/
theorem decodeFrame_eq_some {bytes r : List Byte} {i : Instr} (h : decodeFrame bytes = some (i, r)) :
    (∃ b0 b1, bytes = b0 :: b1 :: r ∧ highNibble b0 = 0x8 ∧ isDataByte b1 = true ∧
      i = .note (lowNibble b0) (lowSeven b1)) ∨
    (∃ b0 b1 b2, bytes = b0 :: b1 :: b2 :: r ∧ highNibble b0 = 0x9 ∧ isDataByte b1 = true ∧ isDataByte b2 = true ∧
      i = .gate (lowNibble b0) (lowSeven b1 ++ lowSeven b2)) := by
  revert h
  fun_cases decodeFrame bytes <;> intro h
  case case1 b0 b1 rest h0 h1 =>
    cases h
    exact .inl ⟨b0, b1, rfl, h0, h1, rfl⟩
  case case3 b0 b1 _ h0 b2 rest hd =>
    cases h
    obtain ⟨h1, h2⟩ := Bool.and_eq_true_iff.mp hd
    exact .inr ⟨b0, b1, b2, rfl, h0, h1, h2, rfl⟩
  all_goals cases h

theorem encode_append_of_decodeFrame {bytes r : List Byte} {i : Instr} (h : decodeFrame bytes = some (i, r)) :
    encode i ++ r = bytes := by
  rcases decodeFrame_eq_some h with ⟨b0, b1, rfl, h0, h1, rfl⟩ | ⟨b0, b1, b2, rfl, h0, h1, h2, rfl⟩
  · rw [encode_note h0 h1]; rfl
  · rw [encode_gate h0 h1 h2]; rfl

/-- The decoder loses no byte: the bytes of the instruction it reads, followed by what it leaves, are its input. -/
theorem encode_append_of_decode {bytes r : List Byte} {i : Instr} (h : decode bytes = .instr i r) :
    encode i ++ r = bytes := by
  match bytes with
  | [] => cases h
  | b :: rest =>
    rw [decode] at h
    split at h
    · next hf => cases h; exact encode_append_of_decodeFrame hf
    · cases h; rw [encode_decodeByte]; rfl

theorem Instr.byteLen_pos (i : Instr) : 0 < i.byteLen := by
  cases i <;> exact Nat.succ_pos _

theorem length_of_decode {bytes r : List Byte} {i : Instr} (h : decode bytes = .instr i r) :
    bytes.length = i.byteLen + r.length := by
  rw [← encode_append_of_decode h, List.length_append, Instr.byteLen]

theorem drop_byteLen_of_decode {bytes r : List Byte} {i : Instr} (h : decode bytes = .instr i r) :
    bytes.drop i.byteLen = r := by
  rw [← encode_append_of_decode h]
  exact List.drop_left

end Sys2Proof

/-! ### Taking the bytes of a call (R135, R161) -/

namespace Sys2Proof.Machine

theorem pendingFeed_eq_ite (bytes : List StampedByte) (rest : List Input) :
    pendingFeed bytes rest = if bytes = [] then rest else .feed bytes :: rest := by
  cases bytes <;> rfl

/-- The sample of the first `n` bytes is that of the byte at index `n - 1` (R161). -/
theorem lastSample_of_getElem? {n : Nat} {bytes : List StampedByte} {b : StampedByte} (hn : 0 < n)
    (h : bytes[n - 1]? = some b) (dflt : Time) : lastSample n bytes dflt = b.time := by
  rw [lastSample, List.getLast?_take, if_neg hn.ne', h]
  rfl

/-- Bytes that all carry the sample `t`, as those of `feedAt` and `State.withFetchWord` do. -/
def stampAll (t : Time) (bs : List Byte) : List StampedByte := bs.map (fun b => { byte := b, time := t })

theorem feedAt_eq (t : Time) (bs : List Byte) : feedAt t bs = .feed (stampAll t bs) := rfl

@[simp] theorem map_byte_stampAll (t : Time) (bs : List Byte) : (stampAll t bs).map (·.byte) = bs := by
  simp [stampAll, Function.comp_def]

@[simp] theorem stampAll_drop_length (t : Time) (bs : List Byte) : (stampAll t bs).drop bs.length = [] := by
  simp [stampAll]

@[simp] theorem lastSample_stampAll (t : Time) (n : Nat) (bs : List Byte) : lastSample n (stampAll t bs) t = t := by
  rw [lastSample, stampAll, ← List.map_take, List.getLast?_map]
  cases (bs.take n).getLast? <;> rfl

/-- A call at the sample `s.now`, taken as a whole, changes nothing but what is pending. -/
theorem takeBytes_stampAll_length (s : State) (bs : List Byte) (rest : List Input) :
    s.takeBytes bs.length (stampAll s.now bs) rest = { s with input := rest } := by
  rw [State.takeBytes, lastSample_stampAll, stampAll_drop_length]
  rfl

/-- Settles O6: the decoder loses no byte, so the instruction's last byte stands in the call and what is left of the call is
what the decoder left. -/
theorem stepRunsTheDecodedInstruction : Obligations.StepRunsTheDecodedInstruction := by
  intro s bytes rest i r hin hdec
  have hlen : bytes.length = i.byteLen + r.length := by simpa using length_of_decode hdec
  have hlt : i.byteLen - 1 < bytes.length := by have := i.byteLen_pos; omega
  have hb : bytes[i.byteLen - 1]? = some bytes[i.byteLen - 1] := List.getElem?_eq_getElem hlt
  refine ⟨bytes[i.byteLen - 1], hb, ?_, ?_⟩
  · rw [List.map_drop, drop_byteLen_of_decode hdec]
  · rw [step_feed hin hdec, State.takeBytes, lastSample_of_getElem? i.byteLen_pos hb, pendingFeed_eq_ite]
    rfl

/-- Settles O7: one equation of `step` for each form of the pending call; `Reset` and an empty `feed` keep the sample. -/
theorem stepTakesTheOtherEvents : Obligations.StepTakesTheOtherEvents :=
  fun _ _ => ⟨step_reset, fun _ => step_tick, step_emptyFeed, step_idle⟩

/-- Settles O8: the word's bytes are a call of the instruction's very length at the sample `s.now`, so taking them gives `s`
back. -/
theorem stepRunsTheFetchWord : Obligations.StepRunsTheFetchWord := by
  intro s nbits w i hdec
  have hin : (s.withFetchWord nbits w).input = .feed (stampAll s.now (wordBytes nbits w)) :: s.input := by
    rw [State.withFetchWord, feedAt_eq]
  have hlen : i.byteLen = (wordBytes nbits w).length := (length_of_decode hdec).symm
  rw [step_feed hin (by rwa [map_byte_stampAll]), hlen]
  exact congrArg (exec i) (takeBytes_stampAll_length (s.withFetchWord nbits w) (wordBytes nbits w) s.input)

/-! ### An ill-formed configuration (R7, U5) -/

theorem onWellFormed_neg {s : State} (h : s.cfg.wellFormed = false) (o : Result) :
    onWellFormed s o = .refused .illFormedConfig := onWellFormed_eq_refused.mpr (.inl ⟨h, rfl⟩)

/-- The first byte event of an instruction already refuses, so nothing of a frame runs. -/
theorem exec_of_illFormed (i : Instr) {s : State} (h : s.cfg.wellFormed = false) :
    exec i s = .refused .illFormedConfig := by
  have hstatus (k : Kind) (c : ChanId) : statusByte k c s = .refused .illFormedConfig := onWellFormed_neg h _
  cases i with
  | data d => exact onWellFormed_neg h _
  | stNote c => exact hstatus .note c
  | stGate c => exact hstatus .gate c
  | rsvAB x => exact onWellFormed_neg h _
  | rsvCF x => exact onWellFormed_neg h _
  | note c n => exact andThen_eq_refused.mpr (.inl (hstatus .note c))
  | gate c d => exact andThen_eq_refused.mpr (.inl (hstatus .gate c))

/-- Settles O48: the well-formedness check stands before every byte event, `Tick` and `Reset`. -/
theorem illFormedConfigurationIsRefused : Obligations.IllFormedConfigurationIsRefused :=
  fun i _ h => ⟨exec_of_illFormed i h, onWellFormed_neg h _, onWellFormed_neg h _⟩

end Sys2Proof.Machine

/-! ## State (spec 10_state.md)

The proofs about the state elements: what one byte event can do, the invariant and its preservation, the pins, and the part of
the state that no rule reads. -/

/-! ### State elements after a write -/

namespace Sys2Proof.Machine

/-- A buffer after a write, in any state: a write beyond the buffers does nothing (log 16). -/
theorem State.bufAt_setBuf_ite (s : State) (p q : Nat) (b : AsmBuf) :
    (s.setBuf p b).bufAt q = if q = p ∧ p < s.bufs.length then b else s.bufAt q := by
  by_cases hp : p < s.bufs.length
  · simp [State.bufAt_setBuf _ _ _ hp, hp]
  · simp [State.setBuf, List.set_eq_of_length_le (Nat.le_of_not_lt hp), hp]

/-- A record after a write, in any state: a write beyond the records does nothing (log 16). -/
theorem State.recAt_setRec_ite (s : State) (p q : Nat) (r : EventRec) :
    (s.setRec p r).recAt q = if q = p ∧ p < s.recs.length then r else s.recAt q := by
  by_cases hp : p < s.recs.length
  · simp [State.recAt_setRec _ _ _ hp, hp]
  · simp [State.setRec, List.set_eq_of_length_le (Nat.le_of_not_lt hp), hp]

/-- A position beyond the records reads as a finished record (log 16). -/
theorem State.recAt_of_ge {s : State} {p : Nat} (h : s.recs.length ≤ p) : s.recAt p = EventRec.initial .finished := by
  simp [State.recAt, h]

/-- `pwmReg` after a `PwmWrite`. -/
theorem State.driveDuty_dutyAt {s : State} (h : outCanonical 0 s.pwm) (r x : PwmRoute) (v : Duty) :
    (s.driveDuty r v).dutyAt x = if x = r then v else s.dutyAt x := readOut_writeOut r x v h

end Sys2Proof.Machine

/-! ### The byte events in closed form (R130 to R134) -/

namespace Sys2Proof.Machine

/-- A command of position `p` is open and data bytes go to it (R132). -/
structure State.OpenAt (s : State) (p : Nat) : Prop where
  valid : s.curValid = true
  found : lookup s.cfg s.cur = some p
  busy : (s.bufAt p).widx ≠ 0

/-- The buffer with the data byte `v` stored at its write index, which becomes `w` (R132, R134). -/
def AsmBuf.push (b : AsmBuf) (w : Fin CAP) (v : Byte) : AsmBuf :=
  { widx := w, slots := b.slots.set b.widx { tag := .data, val := v } }

@[simp] theorem AsmBuf.push_widx (b : AsmBuf) (w : Fin CAP) (v : Byte) : (b.push w v).widx = w := rfl

/-- A data byte that follows a status byte leaves slot 0 alone. -/
theorem AsmBuf.push_slot_zero {b : AsmBuf} (hx : b.widx ≠ 0) (w : Fin CAP) (v : Byte) :
    (b.push w v).slots[0] = b.slots[0] :=
  Vector.getElem_set_ne b.widx.isLt _ (fun h => hx (Fin.ext h))

/-- The data byte is the unit at the old write index. -/
theorem AsmBuf.push_slot_self {b : AsmBuf} {i : Nat} (hi : i < CAP) (hx : b.widx.val = i) (w : Fin CAP) (v : Byte) :
    (b.push w v).slots[i] = { tag := .data, val := v } := by
  subst hx
  exact Vector.getElem_set_self _

theorem AsmBuf.push_slot_ne {b : AsmBuf} {i : Nat} (hi : i < CAP) (hx : b.widx.val ≠ i) (w : Fin CAP) (v : Byte) :
    (b.push w v).slots[i] = b.slots[i] :=
  Vector.getElem_set_ne b.widx.isLt _ hx

/-- The state after the data byte `v` completed the NOTE of position `p` (R134, R180). -/
def State.noteDone (s : State) (p : Nat) (v : Byte) : State :=
  (((s.setBuf p ((s.bufAt p).push 0 v)).emit (.callNote s.cur v)).setRec p { s.recAt p with noteValue := v }).driveDuty
    (s.cfg.entry p).pwm (dutyOf (s.cfg.entry p) v)

/-- The duration of the GATE that the data byte `v` completes (R106). -/
def State.gateDur (s : State) (p : Nat) (v : Byte) : Duration := gatePayload (s.bufAt p).slots[1].val v

/-- The state after the data byte `v` completed the GATE of position `p`, its window ending at `e` (R134, R181). -/
def State.gateDone (s : State) (p : Nat) (v : Byte) (e : Time) : State :=
  ((s.setBuf p ((s.bufAt p).push 0 v)).emit (.callGate s.cur (s.gateDur p v))).setRec p
    { s.recAt p with gateStart := s.now, gateEnd := e, gateState := .notStarted }

/-- The state in which a data byte attempts completion: the unit is stored, the write index has not moved yet (R132). -/
def State.unitStored (s : State) (p : Nat) (v : Byte) : State :=
  s.storeUnit p (s.bufAt p).widx { tag := .data, val := v }

theorem State.unitStored_bufAt {s : State} {p : Nat} (hp : p < s.bufs.length) (v : Byte) :
    (s.unitStored p v).bufAt p = (s.bufAt p).push (s.bufAt p).widx v :=
  (State.bufAt_setBuf p p _ hp).trans (if_pos rfl)

/-- Storing the unit and moving the write index are one write of the buffer. -/
theorem State.unitStored_setWidx {s : State} {p : Nat} (hp : p < s.bufs.length) (v : Byte) (n : Nat) :
    (s.unitStored p v).setWidx p n = s.setBuf p ((s.bufAt p).push (wrapIndex n) v) := by
  rw [State.setWidx, State.unitStored_bufAt hp]
  simp [State.unitStored, State.storeUnit, State.setBuf, AsmBuf.push]

section
variable {s : State} {p : Nat} {v : Byte}

theorem State.OpenAt.lt_bufs (h : s.OpenAt p) : p < s.bufs.length := State.lt_of_isOpen (AsmBuf.isOpen_iff.mpr h.busy)

theorem State.OpenAt.lt_nch (h : s.OpenAt p) : p < s.cfg.nch := lookup_lt h.found

/-- The parser finds the position again when it completes the frame. -/
theorem State.OpenAt.found_unitStored (h : s.OpenAt p) (v : Byte) : lookup (s.unitStored p v).cfg s.cur = some p := h.found

theorem State.OpenAt.unitStored_tag (h : s.OpenAt p) (v : Byte) :
    ((s.unitStored p v).bufAt p).slots[0].tag = (s.bufAt p).slots[0].tag := by
  rw [State.unitStored_bufAt h.lt_bufs, AsmBuf.push_slot_zero h.busy]

/-- The payload of the NOTE is the data byte (R106). -/
theorem State.OpenAt.unitStored_slot_one (h : s.OpenAt p) (hx : (s.bufAt p).widx = 1) (v : Byte) :
    ((s.unitStored p v).bufAt p).slots[1].val = v := by
  rw [State.unitStored_bufAt h.lt_bufs, AsmBuf.push_slot_self (by decide) (by rw [hx]; rfl)]

/-- The payload of the GATE is made of the data byte stored before and the new one (R106). -/
theorem State.OpenAt.unitStored_gatePayload (h : s.OpenAt p) (hx : (s.bufAt p).widx = 2) (v : Byte) :
    gatePayload ((s.unitStored p v).bufAt p).slots[1].val ((s.unitStored p v).bufAt p).slots[2].val = s.gateDur p v := by
  have h2 : (s.bufAt p).widx.val = 2 := by rw [hx]; rfl
  rw [State.unitStored_bufAt h.lt_bufs, AsmBuf.push_slot_self (by decide) h2, AsmBuf.push_slot_ne (by decide) (by omega),
    State.gateDur]

/-- A data byte of an open command with `n - 1` units attempts completion with `n` (R132). -/
theorem dataByte_attempts (hw : s.cfg.wellFormed = true) (ho : s.OpenAt p) {n : Nat}
    (hn : (s.bufAt p).widx.val + 1 = n) : dataByte v s = attemptCompletion p n s.now (s.unitStored p v) :=
  hn ▸ dataByte_open hw ho.valid ho.found ho.busy

/-- Without an open command on the latched channel a data byte is stray (R132). -/
theorem dataByte_of_not_open (hw : s.cfg.wellFormed = true) (h : ¬∃ p, s.OpenAt p) : dataByte v s = .next s := by
  refine dataByte_stray hw ?_
  by_cases hv : s.curValid = true
  · cases hl : lookup s.cfg s.cur with
    | none => exact .inr (.inl rfl)
    | some p => exact .inr (.inr ⟨p, rfl, by_contra fun hx => h ⟨p, hv, hl, hx⟩⟩)
  · exact .inl (Bool.eq_false_iff.mpr hv)

/-- A data byte that completes no frame is stored (R132, R134). -/
theorem dataByte_stores (hw : s.cfg.wellFormed = true) (ho : s.OpenAt p)
    (hk : completedKind (s.bufAt p).slots[0].tag ((s.bufAt p).widx.val + 1) = none) :
    dataByte v s = .next (s.setBuf p ((s.bufAt p).push (wrapIndex ((s.bufAt p).widx.val + 1)) v)) := by
  rw [dataByte_attempts hw ho rfl, attemptCompletion_keep (by rwa [ho.unitStored_tag]),
    State.unitStored_setWidx ho.lt_bufs]

/-- The data byte of a NOTE completes it (R134, R180). -/
theorem dataByte_note (hw : s.cfg.wellFormed = true) (ho : s.OpenAt p)
    (ht : (s.bufAt p).slots[0].tag = .note) (hx : (s.bufAt p).widx = 1) : dataByte v s = .next (s.noteDone p v) := by
  rw [dataByte_attempts hw ho (n := 2) (by rw [hx]; rfl),
    attemptCompletion_note (ho.found_unitStored v) (by rwa [ho.unitStored_tag]), ho.unitStored_slot_one hx]
  exact congrArg (fun t : State => Host.Outcome.next (((t.emit (.callNote s.cur v)).setRec p
    { s.recAt p with noteValue := v }).driveDuty (s.cfg.entry p).pwm (dutyOf (s.cfg.entry p) v)))
    (State.unitStored_setWidx ho.lt_bufs v 0)

/-- The second data byte of a GATE completes it when its window fits (R134, R181). -/
theorem dataByte_gate {e : Time} (hw : s.cfg.wellFormed = true) (ho : s.OpenAt p)
    (ht : (s.bufAt p).slots[0].tag = .gate) (hx : (s.bufAt p).widx = 2) (he : gateEndOf s.now (s.gateDur p v) = some e) :
    dataByte v s = .next (s.gateDone p v e) := by
  have hd := ho.unitStored_gatePayload hx v
  rw [dataByte_attempts hw ho (n := 3) (by rw [hx]; rfl),
    attemptCompletion_gate (ho.found_unitStored v) (by rwa [ho.unitStored_tag]) (by rwa [hd]), hd]
  exact congrArg (fun t : State => Host.Outcome.next ((t.emit (.callGate s.cur (s.gateDur p v))).setRec p
    { s.recAt p with gateStart := s.now, gateEnd := e, gateState := .notStarted }))
    (State.unitStored_setWidx ho.lt_bufs v 0)

/-- The second data byte of a GATE is refused when its window does not fit (R185(d), U1). -/
theorem dataByte_overflow (hw : s.cfg.wellFormed = true) (ho : s.OpenAt p)
    (ht : (s.bufAt p).slots[0].tag = .gate) (hx : (s.bufAt p).widx = 2) (he : gateEndOf s.now (s.gateDur p v) = none) :
    dataByte v s = .refused .timestampOverflow := by
  rw [dataByte_attempts hw ho (n := 3) (by rw [hx]; rfl),
    attemptCompletion_overflow (ho.found_unitStored v) (by rwa [ho.unitStored_tag])
      (by rwa [ho.unitStored_gatePayload hx])]

/-- What an open buffer expects next (R107, R134): a unit that completes no frame, the data byte of a NOTE, or the second data
byte of a GATE. -/
theorem AsmBuf.expects_cases (b : AsmBuf) :
    completedKind b.slots[0].tag (b.widx.val + 1) = none ∨ (b.slots[0].tag = .note ∧ b.widx = 1) ∨
      (b.slots[0].tag = .gate ∧ b.widx = 2) := by
  cases hk : completedKind b.slots[0].tag (b.widx.val + 1) with
  | none => exact .inl rfl
  | some k =>
    rcases completedKind_eq_some.mp hk with ⟨ht, hn, -⟩ | ⟨ht, hn, -⟩
    · exact .inr (.inl ⟨ht, Fin.ext (Nat.succ.inj hn)⟩)
    · exact .inr (.inr ⟨ht, Fin.ext (Nat.succ.inj hn)⟩)

end

/-- All that one byte event which answers a next state can do (R130 to R134). -/
inductive ByteStep (s : State) : State → Prop where
  /-- A stray data byte (R132). -/
  | stay : ByteStep s s
  /-- A status byte for an unconfigured channel. -/
  | latched {c : ChanId} (hl : lookup s.cfg c = none) : ByteStep s (s.latch c)
  /-- A status byte for a configured channel. -/
  | opened (k : Kind) {c : ChanId} {p : Nat} (hl : lookup s.cfg c = some p) :
      ByteStep s ((s.latch c).setBuf p ((s.bufAt p).opened k c))
  /-- A data byte that completes no frame. -/
  | stored {p : Nat} {v : Byte} (hv : isDataByte v = true) (ho : s.OpenAt p)
      (hk : completedKind (s.bufAt p).slots[0].tag ((s.bufAt p).widx.val + 1) = none) :
      ByteStep s (s.setBuf p ((s.bufAt p).push (wrapIndex ((s.bufAt p).widx.val + 1)) v))
  /-- The data byte of a NOTE. -/
  | note {p : Nat} {v : Byte} (hv : isDataByte v = true) (ho : s.OpenAt p) (ht : (s.bufAt p).slots[0].tag = .note)
      (hx : (s.bufAt p).widx = 1) : ByteStep s (s.noteDone p v)
  /-- The second data byte of a GATE. -/
  | gate {p : Nat} {v : Byte} {e : Time} (hv : isDataByte v = true) (ho : s.OpenAt p)
      (ht : (s.bufAt p).slots[0].tag = .gate) (hx : (s.bufAt p).widx = 2)
      (he : gateEndOf s.now (s.gateDur p v) = some e) : ByteStep s (s.gateDone p v e)

theorem statusByte_byteStep {k : Kind} {c : ChanId} {s t : State} (h : statusByte k c s = .next t) : ByteStep s t := by
  have hw := (onWellFormed_eq_next.mp h).1
  cases hl : lookup s.cfg c with
  | none =>
    rw [statusByte_none hw hl] at h
    cases h
    exact .latched hl
  | some p =>
    rw [statusByte_some hw hl] at h
    cases h
    exact .opened k hl

theorem dataByte_byteStep {v : Byte} {s t : State} (hv : isDataByte v = true) (h : dataByte v s = .next t) :
    ByteStep s t := by
  have hw := (onWellFormed_eq_next.mp h).1
  by_cases ho : ∃ p, s.OpenAt p
  · obtain ⟨p, ho⟩ := ho
    rcases (s.bufAt p).expects_cases with hk | ⟨ht, hx⟩ | ⟨ht, hx⟩
    · rw [dataByte_stores hw ho hk] at h
      cases h
      exact .stored hv ho hk
    · rw [dataByte_note hw ho ht hx] at h
      cases h
      exact .note hv ho ht hx
    · cases he : gateEndOf s.now (s.gateDur p v) with
      | none => rw [dataByte_overflow hw ho ht hx he] at h; cases h
      | some e =>
        rw [dataByte_gate hw ho ht hx he] at h
        cases h
        exact .gate hv ho ht hx he
  · rw [dataByte_of_not_open hw ho] at h
    cases h
    exact .stay

/-- What one byte event preserves, every instruction preserves. -/
theorem exec_preserves_of_byteStep {P : State → Prop} (hb : ∀ s t, P s → ByteStep s t → P t) {i : Instr} {s t : State}
    (h : P s) (he : exec i s = .next t) : P t :=
  exec_preserves (fun _ _ _ _ h he => hb _ _ h (statusByte_byteStep he))
    (fun _ _ _ hv h he => hb _ _ h (dataByte_byteStep hv he)) h he

/-- What taking an event, one byte event, `Tick` and `Reset` preserve, every step preserves. -/
theorem step_preserves_of_byteStep {P : State → Prop} (htake : ∀ (s : State) t input, P s → P (s.takeEvent t input))
    (hb : ∀ s t, P s → ByteStep s t → P t) (ht : ∀ s t, P s → execTick s = .next t → P t)
    (hr : ∀ s t, P s → execReset s = .next t → P t) {s s' : State} (h : P s) (he : step s = .next s') : P s' :=
  step_preserves htake (fun _ _ _ _ h he => hb _ _ h (statusByte_byteStep he))
    (fun _ _ _ hv h he => hb _ _ h (dataByte_byteStep hv he)) ht hr h he

end Sys2Proof.Machine

/-! ### What a step leaves unchanged (R44, R46, R260) -/

namespace Sys2Proof.Machine

namespace ByteStep
variable {s t : State}

theorem cfg (h : ByteStep s t) : t.cfg = s.cfg := by cases h <;> rfl
theorem pins (h : ByteStep s t) : t.pins = s.pins := by cases h <;> rfl
theorem input (h : ByteStep s t) : t.input = s.input := by cases h <;> rfl
theorem now (h : ByteStep s t) : t.now = s.now := by cases h <;> rfl

theorem bufs_length (h : ByteStep s t) : t.bufs.length = s.bufs.length := by
  cases h with
  | stay | latched => rfl
  | opened | stored | note | gate => exact List.length_set

theorem recs_length (h : ByteStep s t) : t.recs.length = s.recs.length := by
  cases h with
  | stay | latched | opened | stored => rfl
  | note | gate => exact List.length_set

/-- A byte never clears the latch (R46). -/
theorem curValid (h : ByteStep s t) (hv : s.curValid = true) : t.curValid = true := by
  cases h with
  | latched | opened => rfl
  | stay | stored | note | gate => exact hv

end ByteStep

/-- The configuration and the numbers of state elements are those of `s` (R44). -/
structure State.SameElements (s t : State) : Prop where
  cfg : t.cfg = s.cfg
  bufs : t.bufs.length = s.bufs.length
  recs : t.recs.length = s.recs.length

theorem State.SameElements.trans {s t u : State} (h : s.SameElements t) (h' : t.SameElements u) : s.SameElements u :=
  ⟨h'.cfg.trans h.cfg, h'.bufs.trans h.bufs, h'.recs.trans h.recs⟩

theorem ByteStep.sameElements {s t : State} (h : ByteStep s t) : s.SameElements t :=
  ⟨h.cfg, h.bufs_length, h.recs_length⟩

theorem execTick_sameElements {s t : State} (h : execTick s = .next t) : s.SameElements t := by
  obtain ⟨-, rfl⟩ := execTick_eq_next.mp h
  exact ⟨by simp, by simp, by simp⟩

@[simp] theorem resetState_cfg (s : State) : (resetState s).cfg = s.cfg := rfl

theorem execReset_sameElements {s t : State} (h : execReset s = .next t) : s.SameElements t := by
  obtain ⟨-, rfl⟩ := execReset_eq_next.mp h
  exact ⟨rfl, List.length_map _, List.length_map _⟩

theorem step_sameElements {s t : State} (h : step s = .next t) : s.SameElements t :=
  step_preserves_of_byteStep (P := s.SameElements) (fun _ _ _ hp => ⟨hp.cfg, hp.bufs, hp.recs⟩)
    (fun _ _ hp hb => hp.trans hb.sameElements) (fun _ _ hp ht => hp.trans (execTick_sameElements ht))
    (fun _ _ hp hr => hp.trans (execReset_sameElements hr)) ⟨rfl, rfl, rfl⟩ h

/-- Settles O40: every event keeps the configuration and the lengths of both lists. -/
theorem configurationNeverChanges : Obligations.ConfigurationNeverChanges :=
  fun _ _ h => ⟨(step_sameElements h).cfg, (step_sameElements h).bufs, (step_sameElements h).recs⟩

/-- Settles O41: no byte event and no `Tick` clears the latch, so the event was `Reset`. -/
theorem onlyResetClearsTheLatch : Obligations.OnlyResetClearsTheLatch := by
  intro s s' hs hv hv'
  have kept : ¬s'.curValid = true := by simp [hv']
  rcases step_cases s with ⟨-, e⟩ | ⟨rest, hi, -⟩ | ⟨t, rest, -, e⟩ | ⟨rest, -, e⟩ | ⟨b, bs, rest, i, r, -, -, e⟩
  · cases e.symm.trans hs; exact absurd hv kept
  · exact ⟨rest, hi⟩
  · obtain ⟨-, rfl⟩ := execTick_eq_next.mp (e.symm.trans hs)
    exact absurd (by simpa using hv) kept
  · cases e.symm.trans hs; exact absurd hv kept
  · refine absurd (exec_preserves_of_byteStep (P := (·.curValid = true)) ?_ ?_ (e.symm.trans hs)) kept
    · exact fun _ _ hp hb => hb.curValid hp
    · exact hv

end Sys2Proof.Machine

/-! ### The invariant (R35, R39, R44, R46) -/

namespace Sys2Proof.Machine

/-! #### Framed buffers -/

theorem AsmBuf.framed_of_idle {b : AsmBuf} (h : b.widx = 0) (c : ChanId) : b.Framed c := .inl h

@[simp] theorem AsmBuf.opened_widx (b : AsmBuf) (k : Kind) (c : ChanId) : (b.opened k c).widx = 1 := rfl

theorem AsmBuf.opened_slot_zero (b : AsmBuf) (k : Kind) (c : ChanId) :
    (b.opened k c).slots[0] = { tag := k.tag, val := statusVal k c } := Vector.getElem_set_self (by decide)

/-- A status byte opens `N1` or `G1` (R138). -/
theorem AsmBuf.opened_framed (b : AsmBuf) (k : Kind) (c : ChanId) : (b.opened k c).Framed c := by
  have h0 := b.opened_slot_zero k c
  cases k with
  | note => exact .inr (.inl ⟨rfl, h0⟩)
  | gate => exact .inr (.inr (.inl ⟨rfl, h0⟩))

/-- A data byte that completes no frame of a framed buffer leads from `G1` to `G2` (R138). -/
theorem AsmBuf.push_framed {b : AsmBuf} {c : ChanId} {v : Byte} (h : b.Framed c) (hx : b.widx ≠ 0)
    (hk : completedKind b.slots[0].tag (b.widx.val + 1) = none) (hv : isDataByte v = true) :
    (b.push (wrapIndex (b.widx.val + 1)) v).Framed c := by
  rcases h with h0 | ⟨h1, hs⟩ | ⟨h1, hs⟩ | ⟨h2, hs, -⟩
  · exact absurd h0 hx
  · rw [h1, hs] at hk; exact absurd hk (Option.some_ne_none Kind.note)
  · have hn : b.widx.val = 1 := by rw [h1]; rfl
    refine .inr (.inr (.inr ⟨by rw [h1]; rfl, ?_, ?_⟩))
    · rw [AsmBuf.push_slot_zero hx, hs]
    · rw [AsmBuf.push_slot_self (by decide) hn]; exact ⟨rfl, hv⟩
  · rw [h2, hs] at hk; exact absurd hk (Option.some_ne_none Kind.gate)

/-- A data byte that completes a frame leaves its buffer idle. -/
theorem AsmBuf.push_zero_framed (b : AsmBuf) (v : Byte) (c : ChanId) : (b.push 0 v).Framed c := .inl rfl

theorem EventRec.initial_ordered (gs : GateState) : (EventRec.initial gs).gateStart ≤ (EventRec.initial gs).gateEnd :=
  BitVec.le_refl 0

/-! #### Each update of the state keeps the invariant -/

namespace State.Inv
variable {s : State} (h : s.Inv)
include h

theorem takeEvent (t : Time) (input : List Input) : (s.takeEvent t input).Inv := { h with }

theorem emit (e : Effect) : (s.emit e).Inv := { h with }

theorem latch (c : ChanId) : (s.latch c).Inv := { h with latched := fun hv => nomatch hv }

theorem setBuf {p : Nat} {b : AsmBuf} (hv : s.curValid = true) (hb : b.Framed (s.cfg.entry p).chan) :
    (s.setBuf p b).Inv where
  __ := h
  shape := ⟨List.length_set.trans h.shape.1, h.shape.2⟩
  framed := fun q hq => by
    by_cases hqp : q = p
    · subst hqp
      rw [State.bufAt_setBuf _ _ _ (h.shape.1 ▸ hq), if_pos rfl]
      exact hb
    · rw [State.bufAt_setBuf_ne _ hqp]; exact h.framed q hq
  latched := fun hv' => absurd (hv.symm.trans hv') (by decide)

theorem setRec {p : Nat} {r : EventRec} (hr : r.gateStart ≤ r.gateEnd) : (s.setRec p r).Inv where
  __ := h
  shape := ⟨h.shape.1, List.length_set.trans h.shape.2⟩
  ordered := fun q hq => by
    by_cases hqp : q = p
    · subst hqp
      rw [State.recAt_setRec _ _ _ (h.shape.2 ▸ hq), if_pos rfl]
      exact hr
    · rw [State.recAt_setRec_ne _ hqp]; exact h.ordered q hq

theorem driveDuty {p : Nat} (hp : p < s.cfg.nch) (v : Duty) : (s.driveDuty (s.cfg.entry p).pwm v).Inv where
  __ := h
  duties := writeOut_canonical _ _ h.duties
  dutyRoutes := fun _ he => (mem_writeOut he).elim (fun ⟨heq, _⟩ => ⟨p, hp, heq ▸ rfl⟩) (h.dutyRoutes _)

theorem drivePin {p : Nat} (hp : p < s.cfg.nch) (l : Level) : (s.drivePin (s.cfg.entry p).pin l).Inv where
  __ := h
  levels := writeOut_canonical _ _ h.levels
  pinRoutes := fun _ he => (mem_writeOut he).elim (fun ⟨heq, _⟩ => ⟨p, hp, heq ▸ rfl⟩) (h.pinRoutes _)

/-! #### Each event keeps the invariant -/

theorem byteStep {t : State} (hb : ByteStep s t) : t.Inv := by
  cases hb with
  | stay => exact h
  | latched _ => exact h.latch _
  | opened _ hl => exact (h.latch _).setBuf rfl (lookup_chan hl ▸ AsmBuf.opened_framed _ _ _)
  | stored hv ho hk => exact h.setBuf ho.valid (AsmBuf.push_framed (h.framed _ ho.lt_nch) ho.busy hk hv)
  | note _ ho _ _ =>
    refine driveDuty (setRec ((h.setBuf ho.valid (AsmBuf.push_zero_framed _ _ _)).emit _) ?_) ho.lt_nch _
    exact h.ordered _ ho.lt_nch
  | gate _ ho _ _ he => exact ((h.setBuf ho.valid (AsmBuf.push_zero_framed _ _ _)).emit _).setRec (gateEndOf_ge he)

theorem tickPosition {p : Nat} (hp : p < s.cfg.nch) (t : Time) : (tickPosition t s p).Inv := by
  rw [tickPosition_eq]
  split
  · exact h
  · exact (h.drivePin hp _).setRec (h.ordered p hp)

theorem tickUpTo {n : Nat} (hn : n ≤ s.cfg.nch) (t : Time) : (tickUpTo t n s).Inv := by
  induction n with
  | zero => exact h
  | succ n ih =>
    rw [tickUpTo_succ]
    exact (ih (Nat.le_of_succ_le hn)).tickPosition (by rw [tickUpTo_cfg]; exact hn) t

theorem execTick {t : State} (he : execTick s = .next t) : t.Inv := by
  obtain ⟨-, rfl⟩ := execTick_eq_next.mp he
  exact h.tickUpTo le_rfl _

theorem resetState : (resetState s).Inv where
  shape := ⟨(List.length_map _).trans h.shape.1, (List.length_map _).trans h.shape.2⟩
  framed := fun p _ => AsmBuf.framed_of_idle (by rw [resetState_bufAt]; rfl) _
  latched := fun _ p _ => by rw [resetState_bufAt]; rfl
  ordered := fun p hp => by rw [resetState_recAt (h.shape.2 ▸ hp)]; exact EventRec.initial_ordered _
  duties := h.duties
  levels := pinsFold_canonical h.levels
  dutyRoutes := h.dutyRoutes
  pinRoutes := fun e he => h.pinRoutes e (pinsFold_mem he)

theorem execReset {t : State} (he : execReset s = .next t) : t.Inv := by
  obtain ⟨-, rfl⟩ := execReset_eq_next.mp he
  exact h.resetState

end State.Inv

/-- Settles O37: the four things a step is made of keep the invariant, each from the rules of its updates. -/
theorem everyStepKeepsTheInvariant : Obligations.EveryStepKeepsTheInvariant :=
  fun _ _ h => step_preserves_of_byteStep (P := State.Inv) (fun _ t input h => h.takeEvent t input)
    (fun _ _ h => h.byteStep) (fun _ _ h => h.execTick) (fun _ _ h => h.execReset) h

/-! #### The state after reset (R48) -/

theorem resetWith_bufAt (cfg : Config) (p : Nat) : (State.resetWith cfg).bufAt p = AsmBuf.initial := by
  simp only [State.bufAt, State.resetWith, List.getD_eq_getElem?_getD, List.getElem?_replicate]
  split <;> rfl

theorem resetWith_recAt {cfg : Config} {p : Nat} (hp : p < cfg.nch) :
    (State.resetWith cfg).recAt p = EventRec.initial cfg.resetGateState := by
  simp [State.recAt, State.resetWith, hp]

theorem resetWith_levelAt (cfg : Config) (g : PinRoute) : (State.resetWith cfg).levelAt g = .low := rfl

/-- Settles O34: the buffers and records of the state after reset are copies of the initial ones, and no pin is listed. -/
theorem resetStateHasTheSpecsValues : Obligations.ResetStateHasTheSpecsValues := by
  refine ⟨fun cfg => ⟨rfl, rfl, fun p _ => ?_, fun p hp => ?_, resetWith_levelAt cfg⟩, rfl, rfl, rfl⟩
  · rw [resetWith_bufAt]; rfl
  · rw [resetWith_recAt hp]; exact ⟨rfl, rfl, rfl, rfl⟩

/-- Settles O36: every buffer is idle, every window is `[0, 0]`, and no output register is listed. -/
theorem invariantHoldsAfterReset : Obligations.InvariantHoldsAfterReset := fun cfg =>
  { shape := ⟨List.length_replicate, List.length_replicate⟩
    framed := fun p _ => AsmBuf.framed_of_idle (by rw [resetWith_bufAt]; rfl) _
    latched := fun _ p _ => by rw [resetWith_bufAt]; rfl
    ordered := fun p hp => by rw [resetWith_recAt (cfg := cfg) hp]; exact EventRec.initial_ordered _
    duties := outCanonical_nil
    levels := outCanonical_nil
    dutyRoutes := fun _ he => nomatch he
    pinRoutes := fun _ he => nomatch he }

end Sys2Proof.Machine

/-! ### What an instruction touches (R42, R130 to R138) -/

namespace Sys2Proof.Machine

/-- From `s` to `t`, whose latched channel is that of `t`, only elements of that channel may have changed, and no pin. -/
structure State.TouchesOnlyLatched (s t : State) : Prop where
  cfg : t.cfg = s.cfg
  pins : t.pins = s.pins
  input : t.input = s.input
  now : t.now = s.now
  elements : ∀ q, lookup s.cfg t.cur ≠ some q → t.bufAt q = s.bufAt q ∧ t.recAt q = s.recAt q
  duties : ∀ r, (∀ q, lookup s.cfg t.cur = some q → (s.cfg.entry q).pwm ≠ r) → t.dutyAt r = s.dutyAt r

theorem State.TouchesOnlyLatched.refl (s : State) : s.TouchesOnlyLatched s :=
  ⟨rfl, rfl, rfl, rfl, fun _ _ => ⟨rfl, rfl⟩, fun _ _ => rfl⟩

/-- Two events touch only the channel latched after both, when the second does not move the latch. -/
theorem State.TouchesOnlyLatched.trans {s t u : State} (h : s.TouchesOnlyLatched t) (h' : t.TouchesOnlyLatched u)
    (hc : u.cur = t.cur) : s.TouchesOnlyLatched u where
  cfg := h'.cfg.trans h.cfg
  pins := h'.pins.trans h.pins
  input := h'.input.trans h.input
  now := h'.now.trans h.now
  elements := fun q hq => by
    obtain ⟨hb, hr⟩ := h.elements q (hc ▸ hq)
    obtain ⟨hb', hr'⟩ := h'.elements q (h.cfg ▸ hq)
    exact ⟨hb'.trans hb, hr'.trans hr⟩
  duties := fun r hr => (h'.duties r (h.cfg ▸ hr)).trans (h.duties r (hc ▸ hr))

theorem ByteStep.touchesOnlyLatched {s t : State} (hi : s.Inv) (h : ByteStep s t) : s.TouchesOnlyLatched t where
  cfg := h.cfg
  pins := h.pins
  input := h.input
  now := h.now
  elements := fun q hq => by
    cases h with
    | stay => exact ⟨rfl, rfl⟩
    | latched _ => exact ⟨rfl, rfl⟩
    | opened _ hl => exact ⟨State.bufAt_setBuf_ne _ fun h => hq (h ▸ hl), rfl⟩
    | stored _ ho _ => exact ⟨State.bufAt_setBuf_ne _ fun h => hq (h ▸ ho.found), rfl⟩
    | note _ ho _ _ =>
      have hne : q ≠ _ := fun h => hq (h ▸ ho.found)
      exact ⟨State.bufAt_setBuf_ne _ hne, State.recAt_setRec_ne _ hne⟩
    | gate _ ho _ _ _ =>
      have hne : q ≠ _ := fun h => hq (h ▸ ho.found)
      exact ⟨State.bufAt_setBuf_ne _ hne, State.recAt_setRec_ne _ hne⟩
  duties := fun r hr => by
    cases h with
    | note _ ho _ _ => exact (State.driveDuty_dutyAt hi.duties _ _ _).trans (if_neg fun h => hr _ ho.found h.symm)
    | _ => rfl

/-- A data byte does not move the latch (R132). -/
theorem dataByte_cur {v : Byte} {s t : State} (h : dataByte v s = .next t) : t.cur = s.cur := by
  rcases dataByte_cases (b := v) (onWellFormed_eq_next.mp h).1 with
    e | ⟨p, -, -, -, ⟨-, e⟩ | ⟨-, -, e⟩ | ⟨-, -, _, -, e⟩ | ⟨-, -, -, e⟩⟩ <;> cases e.symm.trans h <;> rfl

theorem dataByte_touchesOnlyLatched {s t : State} {d : Payload} (hi : s.Inv) (h : dataByte (dataVal d) s = .next t) :
    s.TouchesOnlyLatched t := (dataByte_byteStep (isDataByte_dataVal d) h).touchesOnlyLatched hi

/-- A data byte after a status byte is part of the same frame: it goes to the channel the status byte latched. -/
theorem State.TouchesOnlyLatched.dataByte {s t u : State} {d : Payload} (h : s.TouchesOnlyLatched t) (hi : t.Inv)
    (hd : dataByte (dataVal d) t = .next u) : s.TouchesOnlyLatched u :=
  h.trans (dataByte_touchesOnlyLatched hi hd) (dataByte_cur hd)

theorem exec_touchesOnlyLatched {i : Instr} {s t : State} (hi : s.Inv) (h : exec i s = .next t) :
    s.TouchesOnlyLatched t := by
  cases i with
  | data d => exact dataByte_touchesOnlyLatched hi h
  | stNote c => exact (statusByte_byteStep (k := .note) h).touchesOnlyLatched hi
  | stGate c => exact (statusByte_byteStep (k := .gate) h).touchesOnlyLatched hi
  | rsvAB x => obtain ⟨-, he⟩ := onWellFormed_eq_next.mp h; cases he; exact .refl s
  | rsvCF x => obtain ⟨-, he⟩ := onWellFormed_eq_next.mp h; cases he; exact .refl s
  | note c n =>
    obtain ⟨s1, h1, h2⟩ := andThen_eq_next.mp h
    have b1 := statusByte_byteStep h1
    exact (b1.touchesOnlyLatched hi).dataByte (hi.byteStep b1) h2
  | gate c d =>
    obtain ⟨s1, h1, h⟩ := andThen_eq_next.mp h
    obtain ⟨s2, h2, h3⟩ := andThen_eq_next.mp h
    have b1 := statusByte_byteStep h1
    have i1 := hi.byteStep b1
    exact ((b1.touchesOnlyLatched hi).dataByte i1 h2).dataByte (i1.byteStep (dataByte_byteStep (isDataByte_dataVal _) h2)) h3

/-- Settles O43: a byte event touches only the channel then latched, and the data bytes of a frame do not move the latch. -/
theorem instructionsTouchOnlyTheLatchedChannel : Obligations.InstructionsTouchOnlyTheLatchedChannel := by
  intro i s t hi h
  obtain ⟨hcfg, hpins, hinput, hnow, helems, hduties⟩ := exec_touchesOnlyLatched hi h
  exact ⟨hcfg, hpins, hinput, hnow, helems, hduties⟩

/-- The buffer of the position after a status byte for its channel. -/
theorem latch_setBuf_bufAt {c : ChanId} {s : State} {p : Nat} (b : AsmBuf) (hp : p < s.bufs.length) :
    ((s.latch c).setBuf p b).bufAt p = b := (State.bufAt_setBuf p p b hp).trans (if_pos rfl)

/-- After a status byte for the channel of an existing position its command is open. -/
theorem openAt_opened {k : Kind} {c : ChanId} {s : State} {p : Nat} (hl : lookup s.cfg c = some p)
    (hp : p < s.bufs.length) : ((s.latch c).setBuf p ((s.bufAt p).opened k c)).OpenAt p where
  valid := rfl
  found := hl
  busy := by rw [latch_setBuf_bufAt _ hp, AsmBuf.opened_widx]; decide

/-- A whole NOTE frame for a configured channel (R160). -/
theorem exec_note_some {c : ChanId} {n : Payload} {s : State} {p : Nat} (hw : s.cfg.wellFormed = true)
    (hl : lookup s.cfg c = some p) (hp : p < s.bufs.length) :
    exec (.note c n) s = .next (((s.latch c).setBuf p ((s.bufAt p).opened .note c)).noteDone p (dataVal n)) := by
  have hb := latch_setBuf_bufAt (c := c) ((s.bufAt p).opened .note c) hp
  rw [exec, execNote, statusByte_some hw hl, andThen_next]
  refine dataByte_note hw (openAt_opened hl hp) ?_ ?_
  · rw [hb, AsmBuf.opened_slot_zero]; rfl
  · rw [hb, AsmBuf.opened_widx]

/-- Settles O27: the only output register the frame writes is the duty register of the route. -/
theorem dutyRegisterHoldsTheLastWrite : Obligations.DutyRegisterHoldsTheLastWrite := by
  intro c n s p hi hw hl
  have hp : p < s.bufs.length := hi.shape.1 ▸ lookup_lt hl
  refine ⟨_, dutyOf (s.cfg.entry p) (dataVal n), exec_note_some hw hl hp, ?_, fun r => ?_, fun g => rfl⟩
  · exact List.append_assoc s.effects [.callNote c (dataVal n)] _
  · exact State.driveDuty_dutyAt hi.duties _ r _

end Sys2Proof.Machine

/-! ### The pins (R42, R201 to R210) -/

namespace Sys2Proof.Machine

/-! #### The level a list of effects leaves a pin at -/

/-- The level of pin `g` after one effect, `l` being the level before it (R42). -/
def Effect.levelAfter (g : PinRoute) (l : Level) : Effect → Level
  | .gateWrite g' l' => if g' = g then l' else l
  | .pwmWrite _ _ => l
  | .callNote _ _ => l
  | .callGate _ _ => l

/-- The effects of the first `n` positions of a `Tick` (R209). -/
def tickWrites (t : Time) (n : Nat) (s : State) : List Effect :=
  (List.range n).flatMap fun p => ((gateRow (s.recAt p) t).edge.map (Effect.gateWrite (s.cfg.entry p).pin)).toList

theorem tickWrites_succ (t : Time) (n : Nat) (s : State) :
    tickWrites t (n + 1) s =
      tickWrites t n s ++ ((gateRow (s.recAt n) t).edge.map (Effect.gateWrite (s.cfg.entry n).pin)).toList := by
  simp [tickWrites, List.range_succ]

/-- Every pin has the level of the last `GateWrite` to it, else the level it had (R42, R201, R203). -/
theorem tickUpTo_levelAt {s : State} (t : Time) {n : Nat} (h : outCanonical .low s.pins) (hn : n ≤ s.recs.length)
    (g : PinRoute) : (tickUpTo t n s).levelAt g = (tickWrites t n s).foldl (Effect.levelAfter g) (s.levelAt g) := by
  induction n with
  | zero => rfl
  | succ n ih =>
    rw [tickUpTo_succ_levelAt t n s h hn, ih (Nat.le_of_succ_le hn), tickWrites_succ, List.foldl_append]
    cases (gateRow (s.recAt n) t).edge with
    | none => rfl
    | some l => simp [Effect.levelAfter, eq_comm]

/-- Settles O29: the effects of the whole `Tick` are those of its positions, which drive the pins one after another. -/
theorem tickDrivesThePins : Obligations.TickDrivesThePins := by
  intro s t hi h
  obtain ⟨-, rfl⟩ := execTick_eq_next.mp h
  have hn : s.cfg.nch ≤ s.recs.length := hi.shape.2.ge
  exact ⟨tickWrites s.now s.cfg.nch s, tickUpTo_effects _ _ _ hn, tickUpTo_levelAt _ hi.levels hn⟩

/-! #### The pins follow the gate states -/

/-- The level of a pin fits the gate state of its channel (R37, R210). -/
def Level.Follows (l : Level) (g : GateState) : Prop := (g = .running → l = .high) ∧ (g = .finished → l = .low)

theorem State.pinsFollow_iff {s : State} :
    s.PinsFollow ↔ ∀ p < s.cfg.nch, (s.levelAt (s.cfg.entry p).pin).Follows (s.recAt p).gateState := Iff.rfl

theorem Level.follows_notStarted (l : Level) : l.Follows .notStarted := ⟨nofun, nofun⟩

/-- A channel that does not run may have its pin LOW. -/
theorem Level.low_follows {g : GateState} (h : g ≠ .running) : Level.low.Follows g := ⟨fun hr => absurd hr h, fun _ => rfl⟩

/-- The edge of a row drives the pin to the level of the row's next gate state; a row without an edge keeps both. -/
theorem Level.follows_gateRow {l : Level} {r : EventRec} (h : l.Follows r.gateState) (t : Time) :
    ((gateRow r t).edge.getD l).Follows (gateRow r t).next := by
  cases he : (gateRow r t).edge with
  | none => rwa [gateRow_next_of_no_edge he]
  | some l' =>
    revert he
    cases gateRow r t <;> rintro ⟨⟩
    · exact ⟨fun _ => rfl, nofun⟩
    · exact ⟨nofun, fun _ => rfl⟩

/-- On a configuration without shared pins, a channel's pin after the first `n` positions of a `Tick`: the edge of its row, if its
position has been visited. -/
theorem tickUpTo_pin {s : State} (t : Time) {n : Nat} (h : outCanonical .low s.pins) (hs : s.Shape) (hd : s.DistinctPins)
    (hn : n ≤ s.cfg.nch) {p : Nat} (hp : p < s.cfg.nch) :
    (tickUpTo t n s).levelAt (s.cfg.entry p).pin =
      if p < n then (gateRow (s.recAt p) t).edge.getD (s.levelAt (s.cfg.entry p).pin)
      else s.levelAt (s.cfg.entry p).pin := by
  induction n with
  | zero => rfl
  | succ n ih =>
    rw [tickUpTo_succ_levelAt t n s h (hs.2.symm ▸ hn), ih (Nat.le_of_succ_le hn)]
    by_cases hpn : p = n
    · subst hpn
      cases (gateRow (s.recAt p) t).edge <;> simp
    · have hpin : (s.cfg.entry p).pin ≠ (s.cfg.entry n).pin := fun he => hpn (hd p hp n hn he)
      have hlt : p < n + 1 ↔ p < n := by omega
      cases (gateRow (s.recAt n) t).edge <;> simp [hpin, hlt]

/-- A byte event leaves a gate state as it is or arms it (R207). -/
theorem ByteStep.gateState {s t : State} (h : ByteStep s t) (q : Nat) :
    (t.recAt q).gateState = (s.recAt q).gateState ∨ (t.recAt q).gateState = .notStarted := by
  cases h with
  | note _ ho _ _ =>
    left
    rw [State.noteDone, State.driveDuty_recAt, State.recAt_setRec_ite]
    split
    · next hq => rw [hq.1]
    · rfl
  | gate _ ho _ _ _ =>
    rw [State.gateDone, State.recAt_setRec_ite]
    split
    · exact .inr rfl
    · exact .inl rfl
  | _ => exact .inl rfl

/-- What `EveryStepKeepsThePinsWithTheGates` assumes of a state, which every step keeps. -/
structure State.PinInv (s : State) : Prop where
  inv : s.Inv
  distinct : s.DistinctPins
  resets : s.cfg.resetGateState ≠ .running
  follow : s.PinsFollow

namespace State.PinInv
variable {s t : State} (h : s.PinInv)
include h

/-- An event that keeps the configuration has the invariant and the pins to keep. -/
theorem of_follow (hc : t.cfg = s.cfg) (hi : t.Inv) (hf : t.PinsFollow) : t.PinInv where
  inv := hi
  distinct := by rw [State.DistinctPins, hc]; exact h.distinct
  resets := hc ▸ h.resets
  follow := hf

/-- A byte event drives no pin, and what it arms is neither running nor finished. -/
theorem byteStep (hb : ByteStep s t) : t.PinInv := by
  refine h.of_follow hb.cfg (h.inv.byteStep hb) (State.pinsFollow_iff.mpr fun p hp => ?_)
  rw [hb.cfg] at hp ⊢
  rw [State.levelAt, hb.pins]
  rcases hb.gateState p with he | he <;> rw [he]
  · exact h.follow p hp
  · exact Level.follows_notStarted _

theorem execTick (he : execTick s = .next t) : t.PinInv := by
  refine h.of_follow (execTick_sameElements he).cfg (h.inv.execTick he) (State.pinsFollow_iff.mpr fun p hp => ?_)
  obtain ⟨-, rfl⟩ := execTick_eq_next.mp he
  rw [tickUpTo_cfg] at hp ⊢
  rw [tickUpTo_pin _ h.inv.levels h.inv.shape h.distinct le_rfl hp, tickUpTo_recAt _ _ _ h.inv.shape.2.ge,
    if_pos hp, if_pos hp]
  exact Level.follows_gateRow (h.follow p hp) _

theorem execReset (he : execReset s = .next t) : t.PinInv := by
  refine h.of_follow (execReset_sameElements he).cfg (h.inv.execReset he) (State.pinsFollow_iff.mpr fun p hp => ?_)
  obtain ⟨-, rfl⟩ := execReset_eq_next.mp he
  rw [resetState_cfg] at hp ⊢
  have hmem : ∃ e ∈ s.cfg.chans, e.pin = (s.cfg.entry p).pin :=
    ⟨s.cfg.entry p, Config.entry_eq_getElem hp ▸ List.getElem_mem hp, rfl⟩
  rw [resetState_levelAt h.inv.levels, if_pos hmem, resetState_recAt (h.inv.shape.2 ▸ hp)]
  exact Level.low_follows h.resets

end State.PinInv

/-- Settles O39: only a `Tick` drives pins, to the level of the state its row leads to; `Reset` drives all of them LOW and starts
no pulse. -/
theorem everyStepKeepsThePinsWithTheGates : Obligations.EveryStepKeepsThePinsWithTheGates :=
  fun _ _ hi hd hr hf hs => (step_preserves_of_byteStep (P := State.PinInv)
    (fun _ t input h => h.of_follow rfl (h.inv.takeEvent t input) h.follow)
    (fun _ _ h => h.byteStep) (fun _ _ h => h.execTick) (fun _ _ h => h.execReset) ⟨hi, hd, hr, hf⟩ hs).follow

/-- Settles O38: after reset every gate state is `RESET_GATE_STATE` and every pin is LOW. -/
theorem pinsFollowAfterReset : Obligations.PinsFollowAfterReset := by
  intro cfg hr
  have hgate : ∀ p < cfg.nch, ((State.resetWith cfg).recAt p).gateState ≠ .running := fun p hp => by
    rw [resetWith_recAt hp]; exact hr
  exact ⟨hgate, resetWith_levelAt cfg, State.pinsFollow_iff.mpr fun p hp => Level.low_follows (hgate p hp)⟩

end Sys2Proof.Machine

/-! ### What no rule reads (R31, R36, R38, R40, R205; U2, U3, U4, U11) -/

namespace Sys2Proof.Machine

/-! #### Buffers that agree on the units of the command in progress -/

theorem AsmBuf.agreesOnRead_of_idle {a b : AsmBuf} (ha : a.widx = 0) (hb : b.widx = 0) : a.AgreesOnRead b :=
  ⟨ha.trans hb.symm, fun i hi => absurd (ha ▸ hi) (Fin.not_lt_zero i)⟩

/-- A data byte that completes a frame leaves nothing to be read. -/
theorem AsmBuf.push_zero_agreesOnRead (a b : AsmBuf) (v : Byte) : (a.push 0 v).AgreesOnRead (b.push 0 v) :=
  AsmBuf.agreesOnRead_of_idle rfl rfl

/-- A status byte writes the only unit that counts afterwards (R130, R131). -/
theorem AsmBuf.opened_agreesOnRead (a b : AsmBuf) (k : Kind) (c : ChanId) :
    (a.opened k c).AgreesOnRead (b.opened k c) := by
  refine ⟨rfl, fun i hi => ?_⟩
  obtain rfl : i = 0 := Fin.lt_one_iff i |>.mp hi
  exact (a.opened_slot_zero k c).trans (b.opened_slot_zero k c).symm

namespace AsmBuf.AgreesOnRead
variable {a b : AsmBuf} (h : a.AgreesOnRead b)
include h

theorem symm : b.AgreesOnRead a := ⟨h.1.symm, fun i hi => (h.2 i (h.1 ▸ hi)).symm⟩

theorem slot_zero (hx : a.widx ≠ 0) : a.slots[0] = b.slots[0] := h.2 0 (Fin.pos_iff_ne_zero.mpr hx)

theorem slot_one (hx : a.widx = 2) : a.slots[1] = b.slots[1] := h.2 1 (by rw [hx]; decide)

/-- A data byte adds the same unit to both buffers, or leaves both idle. -/
theorem push (v : Byte) :
    (a.push (wrapIndex (a.widx.val + 1)) v).AgreesOnRead (b.push (wrapIndex (b.widx.val + 1)) v) := by
  refine ⟨by rw [AsmBuf.push_widx, AsmBuf.push_widx, h.1], fun i hi => ?_⟩
  by_cases hai : a.widx = i
  · have hbi : b.widx = i := h.1.symm.trans hai
    exact (AsmBuf.push_slot_self i.isLt (congrArg Fin.val hai) _ v).trans
      (AsmBuf.push_slot_self i.isLt (congrArg Fin.val hbi) _ v).symm
  · have hbi : b.widx ≠ i := h.1 ▸ hai
    have hlt : i < a.widx :=
      (by decide : ∀ i w : Fin CAP, i < wrapIndex (w.val + 1) → w ≠ i → i < w) i a.widx hi hai
    exact (AsmBuf.push_slot_ne i.isLt (Fin.val_ne_of_ne hai) _ v).trans ((h.2 i hlt).trans
      (AsmBuf.push_slot_ne i.isLt (Fin.val_ne_of_ne hbi) _ v).symm)

end AsmBuf.AgreesOnRead

/-! #### Records that agree on the bounds still to be reached -/

theorem EventRec.AgreesOnRead.refl (r : EventRec) : r.AgreesOnRead r := ⟨rfl, fun _ => rfl, fun _ => rfl⟩

theorem EventRec.AgreesOnRead.symm {a b : EventRec} (h : a.AgreesOnRead b) : b.AgreesOnRead a :=
  ⟨h.1.symm, fun hn => (h.2.1 (h.1 ▸ hn)).symm, fun hn => (h.2.2 (h.1 ▸ hn)).symm⟩

/-- The row of the tick table is chosen from what is read (R200). -/
theorem EventRec.AgreesOnRead.gateRow {a b : EventRec} (h : a.AgreesOnRead b) (t : Time) : gateRow a t = gateRow b t := by
  obtain ⟨hg, he, hs⟩ := h
  unfold Machine.gateRow
  rw [← hg]
  cases hga : a.gateState with
  | notStarted => simp only [hs hga]
  | running => simp only [he (by rw [hga]; decide)]
  | finished => rfl

/-- No row leads back: what is still read after a row was read before it (R200, R207). -/
theorem gateRow_next_reads (r : EventRec) (t : Time) :
    ((gateRow r t).next ≠ .finished → r.gateState ≠ .finished) ∧
    ((gateRow r t).next = .notStarted → r.gateState = .notStarted) := by
  cases hg : r.gateState with
  | notStarted => exact ⟨fun _ => by decide, fun _ => rfl⟩
  | running => by_cases hr : reached t r.gateEnd = true <;> simp [gateRow, hg, hr, GateRow.next]
  | finished => simp [gateRow, hg, GateRow.next]

theorem EventRec.AgreesOnRead.tick {a b : EventRec} (h : a.AgreesOnRead b) (t : Time) :
    ({ a with gateState := (Machine.gateRow a t).next } : EventRec).AgreesOnRead
      { b with gateState := (Machine.gateRow b t).next } := by
  obtain ⟨hend, hstart⟩ := gateRow_next_reads a t
  refine ⟨?_, fun hn => h.2.1 (hend hn), fun hn => h.2.2 (hstart hn)⟩
  rw [h.gateRow t]

/-! #### Each update of the state keeps two states in agreement -/

namespace State.AgreesOnRead
variable {a b : State} (h : a.AgreesOnRead b)
include h

theorem symm : b.AgreesOnRead a where
  cfg := h.cfg.symm
  curValid := h.curValid.symm
  cur := fun hv => (h.cur (h.curValid ▸ hv)).symm
  bufsLength := h.bufsLength.symm
  bufs := fun p => (h.bufs p).symm
  recsLength := h.recsLength.symm
  recs := fun p => (h.recs p).symm
  pins := h.pins.symm
  input := h.input.symm
  now := h.now.symm
  effects := h.effects.symm

theorem takeEvent (t : Time) (input : List Input) : (a.takeEvent t input).AgreesOnRead (b.takeEvent t input) :=
  { h with input := rfl, now := rfl }

theorem latch (c : ChanId) : (a.latch c).AgreesOnRead (b.latch c) := { h with curValid := rfl, cur := fun _ => rfl }

theorem emit (e : Effect) : (a.emit e).AgreesOnRead (b.emit e) := { h with effects := congrArg (· ++ [e]) h.effects }

/-- Whatever the duty registers held (U2). -/
theorem driveDuty (r : PwmRoute) (v : Duty) : (a.driveDuty r v).AgreesOnRead (b.driveDuty r v) :=
  { h with effects := congrArg (· ++ [Effect.pwmWrite r v]) h.effects }

theorem drivePin (g : PinRoute) (l : Level) : (a.drivePin g l).AgreesOnRead (b.drivePin g l) :=
  { h with
    pins := congrArg (writeOut Level.low · g l) h.pins
    effects := congrArg (· ++ [Effect.gateWrite g l]) h.effects }

theorem setBuf (p : Nat) {x y : AsmBuf} (hxy : x.AgreesOnRead y) : (a.setBuf p x).AgreesOnRead (b.setBuf p y) where
  __ := h
  bufsLength := List.length_set.trans (h.bufsLength.trans List.length_set.symm)
  bufs := fun q => by
    rw [State.bufAt_setBuf_ite, State.bufAt_setBuf_ite, ← h.bufsLength]
    split
    · exact hxy
    · exact h.bufs q

theorem setRec (p : Nat) {x y : EventRec} (hxy : x.AgreesOnRead y) : (a.setRec p x).AgreesOnRead (b.setRec p y) where
  __ := h
  recsLength := List.length_set.trans (h.recsLength.trans List.length_set.symm)
  recs := fun q => by
    rw [State.recAt_setRec_ite, State.recAt_setRec_ite, ← h.recsLength]
    split
    · exact hxy
    · exact h.recs q

/-! #### Data bytes -/

theorem openAt {p : Nat} (ho : a.OpenAt p) : b.OpenAt p where
  valid := h.curValid ▸ ho.valid
  found := h.cfg ▸ h.cur ho.valid ▸ ho.found
  busy := (h.bufs p).1 ▸ ho.busy

/-- A completed NOTE calls the scheduler with the same operands (R180). -/
theorem noteDone {p : Nat} (ho : a.OpenAt p) (v : Byte) : (a.noteDone p v).AgreesOnRead (b.noteDone p v) := by
  rw [State.noteDone, State.noteDone, ← h.cfg, ← h.cur ho.valid]
  refine driveDuty (setRec ((h.setBuf p (AsmBuf.push_zero_agreesOnRead _ _ v)).emit _) p ?_) _ _
  exact h.recs p

theorem gateDur {p : Nat} (hx : (a.bufAt p).widx = 2) (v : Byte) : a.gateDur p v = b.gateDur p v := by
  rw [State.gateDur, State.gateDur, (h.bufs p).slot_one hx]

/-- A completed GATE calls the scheduler with the same operands and overwrites all of the record that is read (R181). -/
theorem gateDone {p : Nat} (ho : a.OpenAt p) (hx : (a.bufAt p).widx = 2) (v : Byte) (e : Time) :
    (a.gateDone p v e).AgreesOnRead (b.gateDone p v e) := by
  rw [State.gateDone, State.gateDone, ← h.cur ho.valid, ← h.now, ← h.gateDur hx]
  exact ((h.setBuf p (AsmBuf.push_zero_agreesOnRead _ _ v)).emit _).setRec p ⟨rfl, fun _ => rfl, fun _ => rfl⟩

/-! #### `Tick` and `Reset` -/

theorem tickPosition (t : Time) (p : Nat) : (tickPosition t a p).AgreesOnRead (tickPosition t b p) := by
  rw [tickPosition_eq, tickPosition_eq, ← (h.recs p).gateRow t, ← h.cfg]
  split
  · exact h
  · exact (h.drivePin _ _).setRec p ((h.recs p).gateRow t ▸ (h.recs p).tick t)

theorem tickUpTo (t : Time) (n : Nat) : (tickUpTo t n a).AgreesOnRead (tickUpTo t n b) := by
  induction n with
  | zero => exact h
  | succ n ih =>
    rw [tickUpTo_succ, tickUpTo_succ]
    exact ih.tickPosition t n

end State.AgreesOnRead

/-- `Reset` writes the records without reading them (R260). -/
theorem resetState_recAt_congr {a b : State} (hc : a.cfg = b.cfg) (hl : a.recs.length = b.recs.length) (p : Nat) :
    (resetState a).recAt p = (resetState b).recAt p := by
  by_cases hp : p < a.recs.length
  · rw [resetState_recAt hp, resetState_recAt (hl ▸ hp), hc]
  · rw [State.recAt_of_ge (by simpa [resetState] using hp), State.recAt_of_ge (by simpa [resetState, ← hl] using hp)]

theorem State.AgreesOnRead.resetState {a b : State} (h : a.AgreesOnRead b) :
    (resetState a).AgreesOnRead (resetState b) where
  cfg := h.cfg
  curValid := rfl
  cur := fun _ => rfl
  bufsLength := (List.length_map _).trans (h.bufsLength.trans (List.length_map _).symm)
  bufs := fun p => by
    rw [resetState_bufAt, resetState_bufAt]
    exact AsmBuf.agreesOnRead_of_idle rfl rfl
  recsLength := (List.length_map _).trans (h.recsLength.trans (List.length_map _).symm)
  recs := fun p => resetState_recAt_congr h.cfg h.recsLength p ▸ .refl _
  pins := congrArg₂ pinsOnReset h.cfg h.pins
  input := h.input
  now := h.now
  effects := h.effects

/-! #### The answers of two states in agreement -/

/-- Next states that agree again, or the same refusal. -/
def AnswersAgree (x y : Result) : Prop :=
  (∃ a b, x = .next a ∧ y = .next b ∧ a.AgreesOnRead b) ∨ ∃ r, x = .refused r ∧ y = .refused r

theorem AnswersAgree.next {a b : State} (h : a.AgreesOnRead b) : AnswersAgree (.next a) (.next b) :=
  .inl ⟨a, b, rfl, rfl, h⟩

theorem AnswersAgree.refused (r : Refusal) : AnswersAgree (.refused r) (.refused r) := .inr ⟨r, rfl, rfl⟩

theorem AnswersAgree.andThen {x y : Result} {f : State → Result} (h : AnswersAgree x y)
    (hf : ∀ a b : State, a.AgreesOnRead b → AnswersAgree (f a) (f b)) : AnswersAgree (andThen x f) (andThen y f) := by
  rcases h with ⟨a, b, rfl, rfl, hab⟩ | ⟨r, rfl, rfl⟩
  · exact hf a b hab
  · exact .refused r

theorem onWellFormed_agree {a b : State} {x y : Result} (hc : a.cfg = b.cfg)
    (h : a.cfg.wellFormed = true → AnswersAgree x y) : AnswersAgree (onWellFormed a x) (onWellFormed b y) := by
  rw [onWellFormed, onWellFormed, ← hc]
  split
  · next hw => exact h hw
  · exact .refused _

theorem statusByte_agree (k : Kind) (c : ChanId) {a b : State} (h : a.AgreesOnRead b) :
    AnswersAgree (statusByte k c a) (statusByte k c b) := by
  by_cases hw : a.cfg.wellFormed = true
  · have hw' : b.cfg.wellFormed = true := h.cfg ▸ hw
    cases hl : lookup a.cfg c with
    | none =>
      rw [statusByte_none hw hl, statusByte_none hw' (h.cfg ▸ hl)]
      exact .next (h.latch c)
    | some p =>
      rw [statusByte_some hw hl, statusByte_some hw' (h.cfg ▸ hl)]
      exact .next ((h.latch c).setBuf p (AsmBuf.opened_agreesOnRead _ _ k c))
  · exact onWellFormed_agree h.cfg fun hw' => absurd hw' hw

theorem dataByte_agree (v : Byte) {a b : State} (h : a.AgreesOnRead b) :
    AnswersAgree (dataByte v a) (dataByte v b) := by
  by_cases hw : a.cfg.wellFormed = true
  swap
  · exact onWellFormed_agree h.cfg fun hw' => absurd hw' hw
  have hw' : b.cfg.wellFormed = true := h.cfg ▸ hw
  by_cases ho : ∃ p, a.OpenAt p
  swap
  · rw [dataByte_of_not_open hw ho, dataByte_of_not_open hw' fun ⟨p, hp⟩ => ho ⟨p, h.symm.openAt hp⟩]
    exact .next h
  obtain ⟨p, ho⟩ := ho
  have ho' := h.openAt ho
  have hx' := (h.bufs p).1
  have ht' := congrArg MsgUnit.tag ((h.bufs p).slot_zero ho.busy)
  rcases (a.bufAt p).expects_cases with hk | ⟨ht, hx⟩ | ⟨ht, hx⟩
  · rw [dataByte_stores hw ho hk, dataByte_stores hw' ho' (by rwa [← ht', ← hx'])]
    exact .next (h.setBuf p ((h.bufs p).push v))
  · rw [dataByte_note hw ho ht hx, dataByte_note hw' ho' (ht' ▸ ht) (hx' ▸ hx)]
    exact .next (h.noteDone ho v)
  · cases he : gateEndOf a.now (a.gateDur p v) with
    | none =>
      rw [dataByte_overflow hw ho ht hx he,
        dataByte_overflow hw' ho' (ht' ▸ ht) (hx' ▸ hx) (h.now ▸ h.gateDur hx v ▸ he)]
      exact .refused _
    | some e =>
      rw [dataByte_gate hw ho ht hx he, dataByte_gate hw' ho' (ht' ▸ ht) (hx' ▸ hx) (h.now ▸ h.gateDur hx v ▸ he)]
      exact .next (h.gateDone ho hx v e)

theorem reservedByte_agree {a b : State} (h : a.AgreesOnRead b) : AnswersAgree (reservedByte a) (reservedByte b) :=
  onWellFormed_agree h.cfg fun _ => .next h

theorem exec_agree (i : Instr) {a b : State} (h : a.AgreesOnRead b) : AnswersAgree (exec i a) (exec i b) := by
  cases i with
  | data d => exact dataByte_agree _ h
  | stNote c => exact statusByte_agree .note c h
  | stGate c => exact statusByte_agree .gate c h
  | rsvAB x => exact reservedByte_agree h
  | rsvCF x => exact reservedByte_agree h
  | note c n => exact (statusByte_agree .note c h).andThen fun _ _ h => dataByte_agree _ h
  | gate c d =>
    exact (statusByte_agree .gate c h).andThen fun _ _ h =>
      (dataByte_agree _ h).andThen fun _ _ h => dataByte_agree _ h

theorem execTick_agree {a b : State} (h : a.AgreesOnRead b) : AnswersAgree (execTick a) (execTick b) :=
  onWellFormed_agree h.cfg fun _ => .next (by rw [← h.cfg, ← h.now]; exact h.tickUpTo _ _)

theorem execReset_agree {a b : State} (h : a.AgreesOnRead b) : AnswersAgree (execReset a) (execReset b) :=
  onWellFormed_agree h.cfg fun _ => .next h.resetState

theorem step_agree {a b : State} (h : a.AgreesOnRead b) : AnswersAgree (step a) (step b) := by
  rcases step_cases a with ⟨hi, e⟩ | ⟨rest, hi, e⟩ | ⟨t, rest, hi, e⟩ | ⟨rest, hi, e⟩ | ⟨x, xs, rest, i, r, hi, hd, e⟩
  · rw [e, step_idle (h.input ▸ hi)]
    exact .next h
  · rw [e, step_reset (h.input ▸ hi), ← h.now]
    exact execReset_agree (h.takeEvent _ _)
  · rw [e, step_tick (h.input ▸ hi)]
    exact execTick_agree (h.takeEvent _ _)
  · rw [e, step_emptyFeed (h.input ▸ hi), ← h.now]
    exact .next (h.takeEvent _ _)
  · rw [e, step_feed (h.input ▸ hi) hd, State.takeBytes, State.takeBytes, ← h.now]
    exact exec_agree i (h.takeEvent _ _)

/-- Settles O51: every update of the state keeps two agreeing states in agreement, and each event chooses its updates from what
they agree on. -/
theorem unreadStateIsNeverObserved : Obligations.UnreadStateIsNeverObserved := fun _ _ => step_agree

/-! #### The `Reset` event and the state after reset -/

/-- `Reset` lists no pin: the listed ones were configured, so it drove them LOW (R260). -/
theorem resetState_pins {s : State} (h : s.Inv) : (resetState s).pins = [] := by
  refine readOut_default_eq_nil (pinsFold_canonical h.levels) fun e he => ?_
  obtain ⟨p, hp, hpin⟩ := h.pinRoutes e (pinsFold_mem he)
  exact (resetState_levelAt h.levels e.1).trans
    (if_pos ⟨s.cfg.entry p, Config.entry_eq_getElem hp ▸ List.getElem_mem hp, hpin⟩)

/-- Settles O35: all buffers are idle on both sides, the records are equal, and no pin is listed. -/
theorem resetEventReachesTheResetState : Obligations.ResetEventReachesTheResetState := by
  intro s t hi h
  obtain ⟨-, rfl⟩ := execReset_eq_next.mp h
  have hlen : s.recs.length = s.cfg.nch := hi.shape.2
  have hrec : ∀ p, (resetState s).recAt p = (State.resetWith s.cfg).recAt p := fun p => by
    by_cases hp : p < s.cfg.nch
    · rw [resetState_recAt (hlen ▸ hp), resetWith_recAt hp]
    · rw [State.recAt_of_ge (by simpa [resetState, hlen] using hp),
        State.recAt_of_ge (by simpa [State.resetWith] using hp)]
  exact
    { cfg := rfl
      curValid := rfl
      cur := fun _ => rfl
      bufsLength := (List.length_map _).trans (hi.shape.1.trans List.length_replicate.symm)
      bufs := fun p => AsmBuf.agreesOnRead_of_idle (by rw [resetState_bufAt]; rfl)
        (congrArg AsmBuf.widx (resetWith_bufAt s.cfg p))
      recsLength := (List.length_map _).trans (hlen.trans List.length_replicate.symm)
      recs := fun p => hrec p ▸ .refl _
      pins := resetState_pins hi
      input := rfl
      now := rfl
      effects := rfl }

end Sys2Proof.Machine

/-! ## Memory (spec 20_memory.md)

The proofs about R71, R72, R77, R78 and R81: channel lookup, the access to an unconfigured channel, the effects of one
instruction, a `Tick` that reaches no bound, and the `Byte` events of a `feed` call as steps of their own. -/

/-! ### Channel lookup (R71, R72) -/

namespace Sys2Proof.Machine

/-- Settles O24: the position `lookup` answers is the first with the identifier; in a well-formed configuration every position is
found by its identifier. -/
theorem lookupIsTheLeastPosition : Obligations.LookupIsTheLeastPosition := by
  intro cfg c
  refine ⟨fun p h => ?_, lookup_eq_none.mp, fun hw p hp hc => ?_⟩
  · obtain ⟨hp, hc, hleast⟩ := lookup_eq_some.mp h
    exact ⟨hp, hc, fun q _ hq => not_lt.mp fun hlt => hleast q hlt hq⟩
  · rw [← hc]
    exact lookup_of_wellFormed hw hp

/-- A data byte is stray while the latch holds an unconfigured channel (R72, R132). -/
theorem dataByte_unconfigured {v : Byte} {s : State} (hw : s.cfg.wellFormed = true) (h : lookup s.cfg s.cur = none) :
    dataByte v s = .next s := dataByte_stray hw (.inr (.inl h))

theorem exec_note_none {c : ChanId} {n : Payload} {s : State} (hw : s.cfg.wellFormed = true) (h : lookup s.cfg c = none) :
    exec (.note c n) s = .next (s.latch c) := by
  rw [exec, execNote, statusByte_none hw h, andThen_next]
  exact dataByte_unconfigured (s := s.latch c) hw h

theorem exec_gate_none {c : ChanId} {d : Duration} {s : State} (hw : s.cfg.wellFormed = true) (h : lookup s.cfg c = none) :
    exec (.gate c d) s = .next (s.latch c) := by
  have stray (v : Byte) : dataByte v (s.latch c) = .next (s.latch c) := dataByte_unconfigured (s := s.latch c) hw h
  rw [exec, execGate, statusByte_none hw h, andThen_next, stray, andThen_next, stray]

/-- Settles O23: the status byte latches the channel and does no more, and every data byte after it is stray. -/
theorem unknownChannelIsInert : Obligations.UnknownChannelIsInert := by
  intro c n x d v t s hw h
  refine ⟨setNoteEvent_none h, setGateEvent_none h, statusByte_none hw h, statusByte_none hw h, exec_note_none hw h,
    exec_gate_none hw h, fun hc => ?_⟩
  subst hc
  exact dataByte_unconfigured hw h

end Sys2Proof.Machine

/-! ### A `Tick` that reaches no bound (R81, R202, R204, R205) -/

namespace Sys2Proof.Machine

/-- The clock has not reached the bound the record waits for (R202, R204, R205). -/
def EventRec.BeforeBound (r : EventRec) (t : Time) : Prop :=
  r.gateState = .finished ∨ (r.gateState = .notStarted ∧ t < r.gateStart) ∨ (r.gateState = .running ∧ t < r.gateEnd)

/-- `Wait`, `Hold` and `Done` are the rows without an edge (R202, R204, R205). -/
theorem EventRec.BeforeBound.no_edge {r : EventRec} {t : Time} (h : r.BeforeBound t) : (gateRow r t).edge = none := by
  have not_reached {bound : Time} (hb : t < bound) : reached t bound = false := by simp [reached, hb]
  rcases h with hg | ⟨hg, hb⟩ | ⟨hg, hb⟩
  · simp [gateRow, hg, GateRow.edge]
  · simp [gateRow, hg, not_reached hb, GateRow.edge]
  · simp [gateRow, hg, not_reached hb, GateRow.edge]

theorem tickPosition_of_no_edge {t : Time} {s : State} {p : Nat} (h : (gateRow (s.recAt p) t).edge = none) :
    tickPosition t s p = s := by
  rw [tickPosition_eq, h]

theorem tickUpTo_of_beforeBound {t : Time} {n : Nat} {s : State} (h : ∀ p < n, (s.recAt p).BeforeBound t) :
    tickUpTo t n s = s := by
  induction n with
  | zero => rfl
  | succ n ih =>
    rw [tickUpTo_succ, ih fun p hp => h p (Nat.lt_succ_of_lt hp)]
    exact tickPosition_of_no_edge (h n n.lt_succ_self).no_edge

/-- Settles O32: no position has an edge, so each leaves the state to the next as it is. -/
theorem tickBeforeEveryBoundChangesNothing : Obligations.TickBeforeEveryBoundChangesNothing :=
  fun _ hw h => (execTick_eq hw).trans (congrArg Host.Outcome.next (tickUpTo_of_beforeBound h))

end Sys2Proof.Machine

/-! ### The effects of one instruction (R78, R136) -/

namespace Sys2Proof.Machine

/-- The command open on the latched channel, if there is one, has its status byte of kind `k` and no more. -/
def State.JustOpened (s : State) (k : Kind) : Prop :=
  ∀ p, s.OpenAt p → (s.bufAt p).slots[0].tag = k.tag ∧ (s.bufAt p).widx = 1

/-- A status byte leaves no other command open on its channel (R130, R131). -/
theorem statusByte_justOpened {k : Kind} {c : ChanId} {s t : State} (h : statusByte k c s = .next t) : t.JustOpened k := by
  have hw := (onWellFormed_eq_next.mp h).1
  intro q ho
  cases hl : lookup s.cfg c with
  | none =>
    rw [statusByte_none hw hl] at h
    cases h
    exact absurd (hl.symm.trans ho.found) (Option.some_ne_none q).symm
  | some p =>
    rw [statusByte_some hw hl] at h
    cases h
    obtain rfl : p = q := Option.some.inj (hl.symm.trans ho.found)
    have hp : p < s.bufs.length := List.length_set.symm ▸ ho.lt_bufs
    rw [latch_setBuf_bufAt _ hp, AsmBuf.opened_slot_zero]
    exact ⟨rfl, rfl⟩

/-- A status byte emits nothing (R130, R131). -/
theorem statusByte_effects {k : Kind} {c : ChanId} {s t : State} (h : statusByte k c s = .next t) :
    t.effects = s.effects := by
  have hw := (onWellFormed_eq_next.mp h).1
  cases hl : lookup s.cfg c with
  | none => rw [statusByte_none hw hl] at h; cases h; rfl
  | some p => rw [statusByte_some hw hl] at h; cases h; rfl

/-- The first data byte of a GATE emits nothing (R138). -/
theorem dataByte_effects_of_justOpened_gate {v : Byte} {s t : State} (hv : isDataByte v = true) (hj : s.JustOpened .gate)
    (h : dataByte v s = .next t) : t.effects = s.effects := by
  cases dataByte_byteStep hv h with
  | note _ ho ht _ => exact absurd (ht.symm.trans (hj _ ho).1) (by decide)
  | gate _ ho _ hx _ => exact absurd (hx.symm.trans (hj _ ho).2) (by decide)
  | _ => rfl

/-- The effects `new` are `old` with those of at most one scheduler call after them (R78, R136). -/
def OneCallAtMost (old new : List Effect) : Prop :=
  new = old ∨ (∃ c d, new = old ++ [.callGate c d]) ∨ (∃ c v r duty, new = old ++ [.callNote c v, .pwmWrite r duty])

theorem ByteStep.oneCallAtMost {s t : State} (h : ByteStep s t) : OneCallAtMost s.effects t.effects := by
  cases h with
  | note _ _ _ _ => exact .inr (.inr ⟨_, _, _, _, List.append_assoc s.effects _ _⟩)
  | gate _ _ _ _ _ => exact .inr (.inl ⟨_, _, rfl⟩)
  | _ => exact .inl rfl

theorem dataByte_oneCallAtMost {d : Payload} {s t : State} (h : dataByte (dataVal d) s = .next t) :
    OneCallAtMost s.effects t.effects := (dataByte_byteStep (isDataByte_dataVal d) h).oneCallAtMost

/-- Settles O44: only the last byte of a frame can call the scheduler, and one byte calls it at most once. -/
theorem instructionsCallTheSchedulerAtMostOnce : Obligations.InstructionsCallTheSchedulerAtMostOnce := by
  intro i s t h
  cases i with
  | data d => exact dataByte_oneCallAtMost h
  | stNote c => exact .inl (statusByte_effects (k := .note) h)
  | stGate c => exact .inl (statusByte_effects (k := .gate) h)
  | rsvAB x => obtain ⟨-, he⟩ := onWellFormed_eq_next.mp h; cases he; exact .inl rfl
  | rsvCF x => obtain ⟨-, he⟩ := onWellFormed_eq_next.mp h; cases he; exact .inl rfl
  | note c n =>
    obtain ⟨s1, h1, h2⟩ := andThen_eq_next.mp h
    rw [← statusByte_effects h1]
    exact dataByte_oneCallAtMost h2
  | gate c d =>
    obtain ⟨s1, h1, h⟩ := andThen_eq_next.mp h
    obtain ⟨s2, h2, h3⟩ := andThen_eq_next.mp h
    have first := dataByte_effects_of_justOpened_gate (isDataByte_dataVal _) (statusByte_justOpened h1) h2
    rw [← statusByte_effects h1, ← first]
    exact dataByte_oneCallAtMost h3

end Sys2Proof.Machine

/-! ### A call byte by byte (R77, R104, R135) -/

namespace Sys2Proof.Machine

/-! #### What an instruction does does not depend on the pending calls, nor on a sample it does not read -/

/-- Two continuations that agree on the state they may be given. -/
theorem andThen_congr {o : Result} {f g : State → Result} (h : ∀ u, o = .next u → f u = g u) :
    andThen o f = andThen o g := by
  cases o with
  | next u => exact h u rfl
  | fault r => rfl
  | refused r => rfl

/-- The answer `o` with the sample `t` and the pending calls `inp`. -/
def answerAt (t : Time) (inp : List Input) (o : Result) : Result := andThen o fun u => .next (u.takeEvent t inp)

theorem andThen_answerAt (t : Time) (inp : List Input) (o : Result) (f : State → Result) :
    andThen (answerAt t inp o) f = andThen o fun u => f (u.takeEvent t inp) := andThen_assoc o _ f

theorem answerAt_andThen (t : Time) (inp : List Input) (o : Result) (f : State → Result) :
    answerAt t inp (andThen o f) = andThen o fun u => answerAt t inp (f u) := andThen_assoc o f _

theorem onWellFormed_takeEvent {s : State} {t : Time} {inp : List Input} {o o' : Result}
    (h : s.cfg.wellFormed = true → o = answerAt t inp o') :
    onWellFormed (s.takeEvent t inp) o = answerAt t inp (onWellFormed s o') := by
  by_cases hw : s.cfg.wellFormed = true
  · rw [onWellFormed_pos hw, onWellFormed_pos (s := s.takeEvent t inp) hw, h hw]
  · have hw' := Bool.eq_false_iff.mpr hw
    rw [onWellFormed_neg hw', onWellFormed_neg (s := s.takeEvent t inp) hw']
    rfl

/-- A status byte reads no sample (R130, R131). -/
theorem statusByte_takeEvent (k : Kind) (c : ChanId) (s : State) (t : Time) (inp : List Input) :
    statusByte k c (s.takeEvent t inp) = answerAt t inp (statusByte k c s) := by
  by_cases hw : s.cfg.wellFormed = true
  · cases hl : lookup s.cfg c with
    | none => rw [statusByte_none hw hl, statusByte_none (s := s.takeEvent t inp) hw hl]; rfl
    | some p => rw [statusByte_some hw hl, statusByte_some (s := s.takeEvent t inp) hw hl]; rfl
  · exact onWellFormed_takeEvent fun hw' => absurd hw' hw

/-- The data byte to come is the second of a GATE: the only byte that reads its sample (R161, R181). -/
def State.AwaitsGate (s : State) : Prop := ∃ p, s.OpenAt p ∧ (s.bufAt p).slots[0].tag = .gate ∧ (s.bufAt p).widx = 2

theorem State.JustOpened.not_awaitsGate {s : State} {k : Kind} (h : s.JustOpened k) : ¬s.AwaitsGate :=
  fun ⟨p, ho, _, hx⟩ => absurd (hx.symm.trans (h p ho).2) (by decide)

theorem State.openAt_takeEvent {s : State} {t : Time} {inp : List Input} {p : Nat} :
    (s.takeEvent t inp).OpenAt p ↔ s.OpenAt p :=
  ⟨fun ⟨hv, hl, hx⟩ => ⟨hv, hl, hx⟩, fun ⟨hv, hl, hx⟩ => ⟨hv, hl, hx⟩⟩

/-- A data byte reads its sample only where it completes a GATE (R132, R161). -/
theorem dataByte_takeEvent {s : State} {t : Time} (h : s.AwaitsGate → t = s.now) (v : Byte) (inp : List Input) :
    dataByte v (s.takeEvent t inp) = answerAt t inp (dataByte v s) := by
  by_cases hw : s.cfg.wellFormed = true
  swap
  · exact onWellFormed_takeEvent fun hw' => absurd hw' hw
  have hw' : (s.takeEvent t inp).cfg.wellFormed = true := hw
  by_cases ho : ∃ p, s.OpenAt p
  swap
  · have ho' : ¬∃ p, (s.takeEvent t inp).OpenAt p := by simpa only [State.openAt_takeEvent] using ho
    rw [dataByte_of_not_open hw ho, dataByte_of_not_open hw' ho']
    rfl
  obtain ⟨p, ho⟩ := ho
  have ho' : (s.takeEvent t inp).OpenAt p := State.openAt_takeEvent.mpr ho
  rcases (s.bufAt p).expects_cases with hk | ⟨ht, hx⟩ | ⟨ht, hx⟩
  · rw [dataByte_stores hw ho hk, dataByte_stores hw' ho' hk]
    rfl
  · rw [dataByte_note hw ho ht hx, dataByte_note hw' ho' ht hx]
    rfl
  · obtain rfl := h ⟨p, ho, ht, hx⟩
    cases he : gateEndOf s.now (s.gateDur p v) with
    | none =>
      rw [dataByte_overflow hw ho ht hx he, dataByte_overflow hw' ho' ht hx he]
      rfl
    | some e =>
      rw [dataByte_gate hw ho ht hx he, dataByte_gate hw' ho' ht hx he]
      rfl

/-- A NOTE frame reads no sample before its last byte (R160). -/
theorem exec_note_takeEvent (c : ChanId) (n : Payload) (s : State) (t : Time) (inp : List Input) :
    exec (.note c n) (s.takeEvent t inp) = andThen (statusByte .note c s) fun u => dataByte (dataVal n) (u.takeEvent t inp) := by
  rw [exec, execNote, statusByte_takeEvent, andThen_answerAt]

/-- A GATE frame reads no sample before its last byte (R161). -/
theorem exec_gate_takeEvent (c : ChanId) (d : Duration) (s : State) (t : Time) (inp : List Input) :
    exec (.gate c d) (s.takeEvent t inp) =
      andThen (statusByte .gate c s) fun u => andThen (dataByte (dataVal (d.extractLsb' 7 7)) u) fun u' =>
        dataByte (dataVal (d.extractLsb' 0 7)) (u'.takeEvent t inp) := by
  rw [exec, execGate, statusByte_takeEvent, andThen_answerAt]
  refine andThen_congr fun u h => ?_
  rw [dataByte_takeEvent fun ha => absurd ha (statusByte_justOpened h).not_awaitsGate, andThen_answerAt]

/-- No instruction reads the pending calls (R136). -/
theorem exec_takeEvent_now (i : Instr) (s : State) (inp : List Input) :
    exec i (s.takeEvent s.now inp) = answerAt s.now inp (exec i s) := by
  have hdata (v : Byte) {u : State} (hu : u.now = s.now) :
      dataByte v (u.takeEvent s.now inp) = answerAt s.now inp (dataByte v u) := dataByte_takeEvent (fun _ => hu.symm) v inp
  cases i with
  | data d => exact hdata _ rfl
  | stNote c => exact statusByte_takeEvent .note c s _ inp
  | stGate c => exact statusByte_takeEvent .gate c s _ inp
  | rsvAB x => exact onWellFormed_takeEvent fun _ => rfl
  | rsvCF x => exact onWellFormed_takeEvent fun _ => rfl
  | note c n =>
    rw [exec_note_takeEvent, exec, execNote, answerAt_andThen]
    exact andThen_congr fun u h => hdata _ (statusByte_byteStep h).now
  | gate c d =>
    rw [exec_gate_takeEvent, exec, execGate, answerAt_andThen]
    refine andThen_congr fun u h => ?_
    rw [answerAt_andThen]
    refine andThen_congr fun u' h' => hdata _ ?_
    rw [(dataByte_byteStep (isDataByte_dataVal _) h').now, (statusByte_byteStep h).now]

/-- The answer of an instruction at the sample `t` before the calls pending after it are put back. -/
theorem exec_takeEvent_nil (i : Instr) (s : State) (t : Time) (inp : List Input) :
    exec i (s.takeEvent t inp) = answerAt t inp (exec i (s.takeEvent t [])) := exec_takeEvent_now i (s.takeEvent t []) inp

/-! #### One instruction, byte by byte -/

/-- The bytes of a call, each as a call of its own (R135). -/
def singleFeeds (bytes : List StampedByte) : List Input := bytes.map fun b => .feed [b]

theorem decodeByte_byteLen (b : Byte) : (decodeByte b).byteLen = 1 := by rw [Instr.byteLen, encode_decodeByte]; rfl

/-- A call of one byte runs that byte's instruction. -/
theorem step_singleFeed (b : StampedByte) (s : State) (t : Time) (inp : List Input) :
    step (s.takeEvent t (.feed [b] :: inp)) = exec (decodeByte b.byte) (s.takeEvent b.time inp) := by
  rw [step_feed (i := decodeByte b.byte) (r := []) rfl rfl, decodeByte_byteLen]
  rfl

/-- The next of several calls of one byte. -/
theorem runSteps_singleFeeds_cons (b : StampedByte) (bs : List StampedByte) (k : Nat) (s : State) (t : Time)
    (inp : List Input) :
    runSteps (k + 1) (s.takeEvent t (singleFeeds (b :: bs) ++ inp)) =
      andThen (exec (decodeByte b.byte) (s.takeEvent b.time (singleFeeds bs ++ inp))) (runSteps k) := by
  rw [← step_singleFeed b s t]
  rfl

theorem runSteps_singleFeeds_one (b : StampedByte) (bs : List StampedByte) (s : State) (t : Time) (inp : List Input) :
    runSteps 1 (s.takeEvent t (singleFeeds (b :: bs) ++ inp)) =
      exec (decodeByte b.byte) (s.takeEvent b.time (singleFeeds bs ++ inp)) := by
  rw [runSteps_singleFeeds_cons]
  cases exec (decodeByte b.byte) (s.takeEvent b.time (singleFeeds bs ++ inp)) <;> rfl

/-- A NOTE frame byte by byte (R160). -/
theorem runSteps_singleFeeds_note {b0 b1 : StampedByte} {c : ChanId} {n : Payload} (h0 : b0.byte = 0x8#4 ++ c)
    (h1 : b1.byte = dataVal n) (bs : List StampedByte) (s : State) (t : Time) (inp : List Input) :
    runSteps 2 (s.takeEvent t (singleFeeds (b0 :: b1 :: bs) ++ inp)) =
      exec (.note c n) (s.takeEvent b1.time (singleFeeds bs ++ inp)) := by
  rw [runSteps_singleFeeds_cons, h0, decodeByte_stNote, exec, execStNote, statusByte_takeEvent, andThen_answerAt,
    exec_note_takeEvent]
  refine andThen_congr fun u _ => ?_
  rw [runSteps_singleFeeds_one, h1, decodeByte_dataVal, exec, execData]

/-- A GATE frame byte by byte: its first data byte completes nothing, so it does not matter which sample it comes with (R161). -/
theorem runSteps_singleFeeds_gate {b0 b1 b2 : StampedByte} {c : ChanId} {d : Duration} (h0 : b0.byte = 0x9#4 ++ c)
    (h1 : b1.byte = dataVal (d.extractLsb' 7 7)) (h2 : b2.byte = dataVal (d.extractLsb' 0 7)) (bs : List StampedByte)
    (s : State) (t : Time) (inp : List Input) :
    runSteps 3 (s.takeEvent t (singleFeeds (b0 :: b1 :: b2 :: bs) ++ inp)) =
      exec (.gate c d) (s.takeEvent b2.time (singleFeeds bs ++ inp)) := by
  rw [runSteps_singleFeeds_cons, h0, decodeByte_stGate, exec, execStGate, statusByte_takeEvent, andThen_answerAt,
    exec_gate_takeEvent]
  refine andThen_congr fun u h => ?_
  rw [runSteps_singleFeeds_cons, h1, decodeByte_dataVal, exec, execData,
    dataByte_takeEvent fun ha => absurd ha (statusByte_justOpened h).not_awaitsGate, andThen_answerAt]
  refine andThen_congr fun u' _ => ?_
  rw [runSteps_singleFeeds_one, h2, decodeByte_dataVal, exec, execData]

/-- The instructions are those of one byte and the two frames (R100, R104). -/
theorem Instr.byte_or_frame (i : Instr) :
    (∃ b, encode i = [b] ∧ decodeByte b = i) ∨ (∃ c n, i = .note c n) ∨ ∃ c d, i = .gate c d := by
  cases i with
  | data d => exact .inl ⟨_, rfl, decodeByte_dataVal d⟩
  | stNote c => exact .inl ⟨_, rfl, decodeByte_stNote c⟩
  | stGate c => exact .inl ⟨_, rfl, decodeByte_stGate c⟩
  | rsvAB x => exact .inl ⟨_, rfl, decodeByte_rsvAB x⟩
  | rsvCF x => exact .inl ⟨_, rfl, decodeByte_rsvCF x⟩
  | note c n => exact .inr (.inl ⟨c, n, rfl⟩)
  | gate c d => exact .inr (.inr ⟨c, d, rfl⟩)

/-- Byte by byte, the first instruction of a call does what it does in one step (R104, R135). -/
theorem runSteps_singleFeeds_of_decode {bytes : List StampedByte} {i : Instr} {r : List Byte}
    (h : decode (bytes.map (·.byte)) = .instr i r) (s : State) (t : Time) (inp : List Input) :
    runSteps i.byteLen (s.takeEvent t (singleFeeds bytes ++ inp)) =
      exec i (s.takeEvent (lastSample i.byteLen bytes t) (singleFeeds (bytes.drop i.byteLen) ++ inp)) := by
  have henc := (encode_append_of_decode h).symm
  rcases Instr.byte_or_frame i with ⟨b, hb, rfl⟩ | ⟨c, n, rfl⟩ | ⟨c, d, rfl⟩
  · rw [hb, List.singleton_append, List.map_eq_cons_iff] at henc
    obtain ⟨b0, bs, rfl, rfl, -⟩ := henc
    rw [decodeByte_byteLen]
    exact runSteps_singleFeeds_one b0 bs s t inp
  · obtain ⟨b0, _, rfl, h0, henc⟩ := List.map_eq_cons_iff.mp henc
    obtain ⟨b1, bs, rfl, h1, -⟩ := List.map_eq_cons_iff.mp henc
    exact runSteps_singleFeeds_note h0 h1 bs s t inp
  · obtain ⟨b0, _, rfl, h0, henc⟩ := List.map_eq_cons_iff.mp henc
    obtain ⟨b1, _, rfl, h1, henc⟩ := List.map_eq_cons_iff.mp henc
    obtain ⟨b2, bs, rfl, h2, -⟩ := List.map_eq_cons_iff.mp henc
    exact runSteps_singleFeeds_gate h0 h1 h2 bs s t inp

/-! #### A whole call -/

/-- The first instruction of a call: one step on the call, and its bytes one at a time, lead to the same answer `o` but for the
pending calls, and leave the same bytes `bs'` (R135). -/
theorem feed_first_instruction (rest : List Input) (b : StampedByte) (bs : List StampedByte) (s : State) (t : Time) :
    ∃ (o : Result) (t' : Time) (bs' : List StampedByte), bs'.length ≤ bs.length ∧
      step (s.takeEvent t (pendingFeed (b :: bs) rest)) = answerAt t' (pendingFeed bs' rest) o ∧
      runSteps (b :: bs).length (s.takeEvent t (singleFeeds (b :: bs) ++ rest)) =
        andThen (answerAt t' (singleFeeds bs' ++ rest) o) (runSteps bs'.length) := by
  obtain ⟨i, r, hd⟩ : ∃ i r, decode ((b :: bs).map (·.byte)) = .instr i r := decode_cons _ _
  have hlen : (b :: bs).length = i.byteLen + ((b :: bs).drop i.byteLen).length := by
    rw [← List.length_map (f := (·.byte)), length_of_decode hd, ← drop_byteLen_of_decode hd, ← List.map_drop,
      List.length_map]
  refine ⟨exec i (s.takeEvent (lastSample i.byteLen (b :: bs) t) []), lastSample i.byteLen (b :: bs) t,
    (b :: bs).drop i.byteLen, ?_, ?_, ?_⟩
  · have := i.byteLen_pos
    rw [List.length_cons] at hlen
    omega
  · exact (step_feed (bytes := b :: bs) rfl hd).trans (exec_takeEvent_nil i s _ _)
  · rw [hlen, runSteps_add, runSteps_singleFeeds_of_decode hd, exec_takeEvent_nil]

/-- What is left of a call is run by as many steps as it has instructions, and byte by byte to the same answer (R135). -/
theorem pendingFeed_runs_as_singleFeeds (rest : List Input) (bytes : List StampedByte) (s : State) (t : Time) :
    ∃ k, runSteps k (s.takeEvent t (pendingFeed bytes rest)) =
      runSteps bytes.length (s.takeEvent t (singleFeeds bytes ++ rest)) := by
  match bytes with
  | [] => exact ⟨0, rfl⟩
  | b :: bs =>
    obtain ⟨o, t', bs', hlt, hwhole, hbytes⟩ := feed_first_instruction rest b bs s t
    rw [hbytes]
    cases o with
    | next u =>
      obtain ⟨k, hk⟩ := pendingFeed_runs_as_singleFeeds rest bs' u t'
      exact ⟨k + 1, by rw [runSteps, hwhole]; exact hk⟩
    | fault f => exact ⟨1, by rw [runSteps, hwhole]; rfl⟩
    | refused f => exact ⟨1, by rw [runSteps, hwhole]; rfl⟩
termination_by bytes.length

/-- Settles O49: instruction by instruction, what a step does with a frame its bytes do one after another; an empty call takes
one step and no bytes. -/
theorem feedIsItsBytesOneAtATime : Obligations.FeedIsItsBytesOneAtATime := by
  intro s bytes rest
  cases bytes with
  | nil => exact ⟨1, rfl⟩
  | cons b bs =>
    obtain ⟨k, hk⟩ := pendingFeed_runs_as_singleFeeds rest (b :: bs) s s.now
    exact ⟨k, (core_run _ _).trans (hk.trans (core_run _ _).symm)⟩

end Sys2Proof.Machine

/-! ## Encoding (spec 30_encoding.md)

The proofs about R100 to R106: the class of a byte, decoding what was encoded, the words of the opcode table and the payload of
a GATE. -/

/-! ### The fields of a byte as numbers (R10, R100 to R102) -/

namespace Sys2Proof

theorem highNibble_toNat (b : Byte) : (highNibble b).toNat = b.toNat / 16 := by
  have := b.isLt
  rw [highNibble, BitVec.extractLsb'_toNat, Nat.shiftRight_eq_div_pow]
  omega

theorem highNibble_eq_iff {b : Byte} {k : BitVec 4} : highNibble b = k ↔ b.toNat / 16 = k.toNat := by
  rw [← highNibble_toNat, BitVec.toNat_inj]

theorem highNibble_le_iff {b : Byte} {k : BitVec 4} : highNibble b ≤ k ↔ b.toNat / 16 ≤ k.toNat := by
  rw [← highNibble_toNat, BitVec.le_def]

theorem isDataByte_iff {b : Byte} : isDataByte b = true ↔ b.toNat < 128 := by
  rw [isDataByte, decide_eq_true_iff, highNibble_le_iff]
  change _ ≤ 7 ↔ _
  omega

/-- The low `w` bits of a byte are its value modulo `2 ^ w`. -/
theorem extractLsb'_zero_eq_ofNat (w : Nat) (b : Byte) : b.extractLsb' 0 w = BitVec.ofNat w (b.toNat % 2 ^ w) := by
  apply BitVec.eq_of_toNat_eq
  simp

/-- The rows of the byte map as intervals of byte values (R100). -/
theorem decodeByte_eq_ite (b : Byte) : decodeByte b =
    if b.toNat ≤ 0x7F then .data (BitVec.ofNat 7 b.toNat)
    else if b.toNat ≤ 0x8F then .stNote (BitVec.ofNat 4 (b.toNat % 16))
    else if b.toNat ≤ 0x9F then .stGate (BitVec.ofNat 4 (b.toNat % 16))
    else if b.toNat ≤ 0xBF then .rsvAB (BitVec.ofNat 5 (b.toNat % 32))
    else .rsvCF (BitVec.ofNat 6 (b.toNat % 64)) := by
  have low := fun w => extractLsb'_zero_eq_ofNat w b
  -- row by row: the test on the nibble is the one on the byte, given that the rows above do not apply
  refine ite_congr (propext (isDataByte_iff.trans (by omega))) (fun hd => ?_) fun _ =>
    ite_congr (propext (highNibble_eq_iff.trans (?_ : _ = 8 ↔ _))) (fun _ => congrArg _ (low 4)) fun _ =>
    ite_congr (propext (highNibble_eq_iff.trans (?_ : _ = 9 ↔ _))) (fun _ => congrArg _ (low 4)) fun _ =>
    ite_congr (propext (highNibble_le_iff.trans (?_ : _ ≤ 11 ↔ _))) (fun _ => congrArg _ (low 5)) fun _ =>
    congrArg _ (low 6)
  · rw [lowSeven, low, Nat.mod_eq_of_lt (by omega)]
  all_goals omega

end Sys2Proof

/-! ### Decoding what was encoded (R101 to R105) -/

namespace Sys2Proof.Machine

theorem decodeByte_of_highNibble_note {b : Byte} (h : highNibble b = 0x8) : decodeByte b = .stNote (lowNibble b) := by
  rw [← status_append_lowNibble (k := 0x8#4) h, decodeByte_stNote, lowNibble_status]

theorem decodeByte_of_highNibble_gate {b : Byte} (h : highNibble b = 0x9) : decodeByte b = .stGate (lowNibble b) := by
  rw [← status_append_lowNibble (k := 0x9#4) h, decodeByte_stGate, lowNibble_status]

theorem decode_of_decodeFrame {b : Byte} {bs r : List Byte} {i : Instr} (h : decodeFrame (b :: bs) = some (i, r)) :
    decode (b :: bs) = .instr i r := by rw [decode, h]

/-- A byte that begins no frame is an instruction of its own (R100, R109). -/
theorem decode_of_decodeFrame_none {b : Byte} {bs : List Byte} (h : decodeFrame (b :: bs) = none) :
    decode (b :: bs) = .instr (decodeByte b) bs := by rw [decode, h]

theorem decode_note (c : ChanId) (n : Payload) (rest : List Byte) :
    decode (encode (.note c n) ++ rest) = .instr (.note c n) rest := by
  apply decode_of_decodeFrame
  change decodeFrame ((0x8#4 ++ c) :: dataVal n :: rest) = _
  simp [decodeFrame, highNibble_status, lowNibble_status, isDataByte_dataVal, lowSeven_dataVal]

theorem decode_gate (c : ChanId) (d : Duration) (rest : List Byte) :
    decode (encode (.gate c d) ++ rest) = .instr (.gate c d) rest := by
  apply decode_of_decodeFrame
  change decodeFrame ((0x9#4 ++ c) :: dataVal (d.extractLsb' 7 7) :: dataVal (d.extractLsb' 0 7) :: rest) = _
  simp [decodeFrame, highNibble_status, lowNibble_status, isDataByte_dataVal, lowSeven_dataVal, duration_halves]

/-- No frame begins with a byte that is not followed by the data bytes its nibble asks for (R104). -/
theorem decodeFrame_eq_none {b : Byte} {rest : List Byte}
    (h8 : highNibble b = 0x8 → ∀ b1 bs, rest = b1 :: bs → isDataByte b1 = false)
    (h9 : highNibble b = 0x9 → ∀ b1 b2 bs, rest = b1 :: b2 :: bs → ¬(isDataByte b1 = true ∧ isDataByte b2 = true)) :
    decodeFrame (b :: rest) = none := by
  refine Option.eq_none_iff_forall_ne_some.mpr fun ⟨i, r⟩ h => ?_
  rcases decodeFrame_eq_some h with ⟨b0, b1, hb, h0, h1, -⟩ | ⟨b0, b1, b2, hb, h0, h1, h2, -⟩
  · cases hb
    exact Bool.false_ne_true ((h8 h0 b1 r rfl).symm.trans h1)
  · cases hb
    exact h9 h0 b1 b2 r rfl ⟨h1, h2⟩

/-- Settles O1: a frame is read back field by field; a single byte is read alone, because the data bytes of the one frame it could
begin do not follow it. -/
theorem decodeOfEncodeIsTheInstruction : Obligations.DecodeOfEncodeIsTheInstruction := by
  intro i rest hnote hgate
  rcases Instr.byte_or_frame i with ⟨b, henc, hi⟩ | ⟨c, n, rfl⟩ | ⟨c, d, rfl⟩
  · have hframe : decodeFrame (b :: rest) = none := decodeFrame_eq_none
      (fun h b1 bs => hnote _ b1 bs (hi.symm.trans (decodeByte_of_highNibble_note h)))
      (fun h b1 b2 bs => hgate _ b1 b2 bs (hi.symm.trans (decodeByte_of_highNibble_gate h)))
    rw [henc, List.singleton_append, decode_of_decodeFrame_none hframe, hi]
  · exact decode_note c n rest
  · exact decode_gate c d rest

/-- Settles O2: a lone byte and either frame are encoded in the very bytes they were read from. -/
theorem decodeLosesNoBit : Obligations.DecodeLosesNoBit := fun _ _ _ => encode_append_of_decode

/-- Settles O3: a call of one byte holds no frame, so it is read by the byte map. -/
theorem byteClassIsTheHighNibble : Obligations.ByteClassIsTheHighNibble :=
  fun b => congrArg (DecodeResult.instr · []) (decodeByte_eq_ite b)

/-- With nothing after it in the call, an instruction is read back whatever it is. -/
theorem decode_encode (i : Instr) : decode (encode i) = .instr i [] := by
  have h := decodeOfEncodeIsTheInstruction i [] (fun _ _ _ _ h => nomatch h) (fun _ _ _ _ _ h => nomatch h)
  rwa [List.append_nil] at h

theorem decodeTableWord_of_wordBytes {nbits w : Nat} {i : Instr} (h : wordBytes nbits w = encode i) :
    decodeTableWord nbits w = some i := by
  rw [decodeTableWord, h, decode_encode]

/-- Settles O4: the bytes of each word are those its instruction is encoded in. -/
theorem wordsOfEachRowDecode : Obligations.WordsOfEachRowDecode := by
  refine ⟨?_, ?_, ?_, ?_, ?_, ?_, ?_⟩ <;> exact decodeTableWord_of_wordBytes rfl

/-! ### The payload of a GATE (R106) -/

theorem gatePayload_toNat (h l : Byte) : (gatePayload h l).toNat = h.toNat % 128 * 128 + l.toNat % 128 := by
  have mask (b : Byte) : ((b &&& 0x7F).setWidth 14).toNat = b.toNat % 128 := by
    rw [BitVec.toNat_setWidth, BitVec.toNat_and, show (0x7F : Byte).toNat = 2 ^ 7 - 1 from rfl, Nat.and_two_pow_sub_one_eq_mod]
    omega
  rw [gatePayload, BitVec.toNat_or, BitVec.toNat_shiftLeft, mask, mask, Nat.shiftLeft_eq,
    Nat.mod_eq_of_lt (by omega), ← Nat.shiftLeft_eq, ← Nat.shiftLeft_add_eq_or_of_lt (by omega), Nat.shiftLeft_eq]

/-- Settles O5: a data byte is its own remainder modulo 128. -/
theorem gatePayloadIsHighSevenThenLowSeven : Obligations.GatePayloadIsHighSevenThenLowSeven := by
  refine fun h l => ⟨gatePayload_toNat h l, fun hh hl => ?_⟩
  rw [gatePayload_toNat, Nat.mod_eq_of_lt (isDataByte_iff.mp hh), Nat.mod_eq_of_lt (isDataByte_iff.mp hl)]

end Sys2Proof.Machine

/-! ## Byte framer (spec 40_framer_bytes.md)

The proofs about R130 to R134, R138 and R261: the whole next state of a status byte, of a data byte and of a reserved byte, the
transition table of one position, and the data bytes before the first status byte. -/

/-! ### Status bytes and reserved bytes (R130, R131, R133) -/

namespace Sys2Proof.Machine

/-- Settles O9: a status byte of kind NOTE, whether its channel is found or not. -/
theorem stNoteOpensANote : Obligations.StNoteOpensANote :=
  fun _ _ hw => ⟨statusByte_none hw, fun _ => statusByte_some hw⟩

/-- Settles O10: a status byte of kind GATE, whether its channel is found or not. -/
theorem stGateOpensAGate : Obligations.StGateOpensAGate :=
  fun _ _ hw => ⟨statusByte_none hw, fun _ => statusByte_some hw⟩

theorem reservedByte_discarded {s : State} (hw : s.cfg.wellFormed = true) : reservedByte s = .next s := onWellFormed_pos hw _

/-- Settles O15: both rows are the same event, which discards the byte. -/
theorem reservedByteChangesNothing : Obligations.ReservedByteChangesNothing :=
  fun _ _ _ hw => ⟨reservedByte_discarded hw, reservedByte_discarded hw⟩

end Sys2Proof.Machine

/-! ### Data bytes (R132, R134) -/

namespace Sys2Proof.Machine

theorem exec_data (d : Payload) (s : State) : exec (.data d) s = dataByte (dataVal d) s := rfl

theorem dataVal_toNat (d : Payload) : (dataVal d).toNat = d.toNat := by
  rw [dataVal, BitVec.toNat_append, BitVec.toNat_ofNat]
  simp

/-- Settles O11: the three cases are those of the discard lines of R132. -/
theorem strayDataByteChangesNothing : Obligations.StrayDataByteChangesNothing := fun _ _ => dataByte_stray

/-- Settles O12: the two excluded buffers are the only ones that a data byte completes. -/
theorem dataByteIsStoredInAnOpenCommand : Obligations.DataByteIsStoredInAnOpenCommand := by
  intro d s p hr hv hl hx hnote hgate
  have hk : completedKind (s.bufAt p).slots[0].tag ((s.bufAt p).widx.val + 1) = none := by
    rcases (s.bufAt p).expects_cases with hk | ⟨ht, h1⟩ | ⟨ht, h2⟩
    · exact hk
    · exact absurd ⟨h1, ht⟩ hnote
    · exact absurd ⟨h2, ht⟩ hgate
  exact dataByte_stores hr.1 ⟨hv, hl, hx⟩ hk

/-- The buffer after a data byte, its write index being `i`. -/
theorem AsmBuf.push_eq {b : AsmBuf} {i : Fin CAP} (hi : b.widx = i) (w : Fin CAP) (v : Byte) :
    b.push w v = { widx := w, slots := b.slots.set i { tag := .data, val := v } } := hi ▸ rfl

/-- The call comes before the write of the duty register (R134, R180). -/
theorem State.noteDone_effects (s : State) (p : Nat) (v : Byte) :
    (s.noteDone p v).effects =
      s.effects ++ [.callNote s.cur v, .pwmWrite (s.cfg.entry p).pwm (dutyOf (s.cfg.entry p) v)] :=
  List.append_assoc s.effects [.callNote s.cur v] _

/-- All that the data byte of a NOTE changes (R134, R180). -/
theorem State.noteDone_eq (s : State) (p : Nat) (v : Byte) :
    s.noteDone p v = { s with
      bufs := s.bufs.set p ((s.bufAt p).push 0 v),
      recs := s.recs.set p { s.recAt p with noteValue := v },
      pwm := writeOut 0 s.pwm (s.cfg.entry p).pwm (dutyOf (s.cfg.entry p) v),
      effects := s.effects ++ [.callNote s.cur v, .pwmWrite (s.cfg.entry p).pwm (dutyOf (s.cfg.entry p) v)] } := by
  rw [← State.noteDone_effects]
  rfl

/-- Settles O13: the table is not empty, so the duty is an entry of it; the payload is the byte itself. -/
theorem dataByteCompletesANote : Obligations.DataByteCompletesANote := by
  intro d s p hr hv hl hx ht
  have ho : s.OpenAt p := ⟨hv, hl, by rw [hx]; decide⟩
  refine ⟨dutyOf (s.cfg.entry p) (dataVal d), ?_, ?_⟩
  · rw [← dataVal_toNat, dutyOf_mem hr.1 ho.lt_nch]
  · rw [exec_data, dataByte_note hr.1 ho ht hx, State.noteDone_eq, AsmBuf.push_eq hx]
    rfl

/-- The end of a window that fits is the sum as a number (R181). -/
theorem gateEndOf_eq_ofNat {t : Time} {d : Duration} (h : t.toNat + d.toNat < 2 ^ 32) :
    gateEndOf t d = some (BitVec.ofNat 32 (t.toNat + d.toNat)) := by
  rw [gateEndOf_fits h, BitVec.ofNat_add, BitVec.ofNat_toNat, BitVec.ofNat_toNat, BitVec.setWidth_eq]

/-- The duration of a GATE as a number: seven bits of the stored unit, then those of the data byte (R106). -/
theorem State.gateDur_toNat (s : State) (p : Nat) (d : Payload) :
    (s.gateDur p (dataVal d)).toNat = (s.bufAt p).slots[1].val.toNat % 128 * 128 + d.toNat := by
  rw [State.gateDur, gatePayload_toNat, dataVal_toNat, Nat.mod_eq_of_lt d.isLt]

/-- Settles O14: the duration is that of the stored unit and the byte, and its window fits or does not. -/
theorem dataByteCompletesAGate : Obligations.DataByteCompletesAGate := by
  intro d s p hr hv hl hx ht dur hdur
  have ho : s.OpenAt p := ⟨hv, hl, by rw [hx]; decide⟩
  obtain rfl : s.gateDur p (dataVal d) = dur := BitVec.eq_of_toNat_eq (by rw [State.gateDur_toNat, hdur])
  rw [exec_data]
  constructor
  · intro hfits
    rw [dataByte_gate hr.1 ho ht hx (gateEndOf_eq_ofNat hfits), State.gateDone, AsmBuf.push_eq hx]
    rfl
  · exact fun hover => dataByte_overflow hr.1 ho ht hx (gateEndOf_overflow (Nat.not_lt.mpr hover))

end Sys2Proof.Machine

/-! ### The transition table of one position (R138) -/

namespace Sys2Proof.Machine

/-! #### The rows for the latched channel -/

/-- The column of a status byte: every state leads to `N1` or `G1`, without a call. -/
theorem statusByte_row (k : Kind) {c : ChanId} {s : State} {p : Nat} (hr : s.Ready) (hl : lookup s.cfg c = some p) :
    ∃ t, statusByte k c s = .next t ∧ (t.bufAt p).widx = 1 ∧ (t.bufAt p).slots[0].tag = k.tag ∧
      t.effects = s.effects := by
  have hb := latch_setBuf_bufAt (c := c) ((s.bufAt p).opened k c) (hr.2.1 ▸ lookup_lt hl : p < s.bufs.length)
  refine ⟨_, statusByte_some hr.1 hl, ?_, ?_, rfl⟩
  · rw [hb, AsmBuf.opened_widx]
  · rw [hb, AsmBuf.opened_slot_zero]

theorem State.setBuf_bufAt_self {s : State} {p : Nat} (b : AsmBuf) (hp : p < s.bufs.length) :
    (s.setBuf p b).bufAt p = b := (State.bufAt_setBuf p p b hp).trans (if_pos rfl)

/-- At a sample the host may supply a data byte is never refused (R185(d)). -/
theorem dataByte_completes {s : State} (v : Byte) (hw : s.cfg.wellFormed = true) (ht : timely s.now) :
    ∃ t, dataByte v s = .next t := by
  by_cases ho : ∃ p, s.OpenAt p
  · obtain ⟨p, ho⟩ := ho
    rcases (s.bufAt p).expects_cases with hk | ⟨htag, hx⟩ | ⟨htag, hx⟩
    · exact ⟨_, dataByte_stores hw ho hk⟩
    · exact ⟨_, dataByte_note hw ho htag hx⟩
    · exact ⟨_, dataByte_gate hw ho htag hx (gateEndOf_timely ht _)⟩
  · exact ⟨_, dataByte_of_not_open hw ho⟩

section
variable {s t : State} {p : Nat} {v : Byte} (hw : s.cfg.wellFormed = true) (h : dataByte v s = .next t)
include hw h

/-- `Idle`: the data byte is stray. -/
theorem dataByte_row_idle (hl : lookup s.cfg s.cur = some p) (hx : (s.bufAt p).widx = 0) :
    (t.bufAt p).widx = 0 ∧ t.effects = s.effects := by
  cases (dataByte_stray hw (.inr (.inr ⟨p, hl, hx⟩))).symm.trans h
  exact ⟨hx, rfl⟩

/-- `N1`: the data byte leads to `Idle` and calls `setNoteEvent`. -/
theorem dataByte_row_note (ho : s.OpenAt p) (hx : (s.bufAt p).widx = 1) (ht : (s.bufAt p).slots[0].tag = .note) :
    (t.bufAt p).widx = 0 ∧ .callNote s.cur v ∈ t.effects.drop s.effects.length := by
  cases (dataByte_note hw ho ht hx).symm.trans h
  refine ⟨congrArg AsmBuf.widx (State.setBuf_bufAt_self _ ho.lt_bufs), ?_⟩
  rw [State.noteDone_effects, List.drop_left]
  exact List.mem_cons_self

/-- `G1`: the data byte leads to `G2` without a call. -/
theorem dataByte_row_gate_first (ho : s.OpenAt p) (hx : (s.bufAt p).widx = 1) (ht : (s.bufAt p).slots[0].tag = .gate) :
    (t.bufAt p).widx = 2 ∧ (t.bufAt p).slots[0].tag = .gate ∧ t.effects = s.effects := by
  have hk : completedKind (s.bufAt p).slots[0].tag ((s.bufAt p).widx.val + 1) = none := by rw [ht, hx]; rfl
  cases (dataByte_stores hw ho hk).symm.trans h
  rw [State.setBuf_bufAt_self _ ho.lt_bufs, AsmBuf.push_slot_zero ho.busy, AsmBuf.push_widx, hx]
  exact ⟨rfl, ht, rfl⟩

/-- `G2`: the data byte leads to `Idle` and calls `setGateEvent`. -/
theorem dataByte_row_gate_second (htime : timely s.now) (ho : s.OpenAt p) (hx : (s.bufAt p).widx = 2)
    (ht : (s.bufAt p).slots[0].tag = .gate) :
    (t.bufAt p).widx = 0 ∧ ∃ dur, t.effects = s.effects ++ [.callGate s.cur dur] := by
  cases (dataByte_gate hw ho ht hx (gateEndOf_timely htime _)).symm.trans h
  exact ⟨congrArg AsmBuf.widx (State.setBuf_bufAt_self _ ho.lt_bufs), _, rfl⟩

end

/-! #### Bytes that do not reach the position -/

/-- A byte event leaves every buffer alone but that of the channel then latched. -/
theorem ByteStep.bufAt_of_not_latched {s t : State} {q : Nat} (h : ByteStep s t) (hq : lookup s.cfg t.cur ≠ some q) :
    t.bufAt q = s.bufAt q := by
  cases h with
  | stay | latched => rfl
  | opened _ hl => exact State.bufAt_setBuf_ne _ fun h => hq (h ▸ hl)
  | stored _ ho | note _ ho | gate _ ho => exact State.bufAt_setBuf_ne _ fun h => hq (h ▸ ho.found)

/-- A status byte always completes, and latches its channel. -/
theorem statusByte_latches (k : Kind) (c : ChanId) {s : State} (hw : s.cfg.wellFormed = true) :
    ∃ t, statusByte k c s = .next t ∧ t.cur = c := by
  cases hl : lookup s.cfg c with
  | none => exact ⟨_, statusByte_none hw hl, rfl⟩
  | some p => exact ⟨_, statusByte_some hw hl, rfl⟩

/-- Two identifiers are not found at one position (R71). -/
theorem lookup_ne_of_ne {cfg : Config} {a c : ChanId} {p : Nat} (hc : lookup cfg c = some p) (h : a ≠ c) :
    lookup cfg a ≠ some p := fun ha => h (lookup_inj ha hc)

theorem statusByte_other_channel (k : Kind) {c c' : ChanId} {s : State} {p : Nat} (hw : s.cfg.wellFormed = true)
    (hl : lookup s.cfg c = some p) (hc : c' ≠ c) : ∃ t, statusByte k c' s = .next t ∧ t.bufAt p = s.bufAt p := by
  obtain ⟨t, ht, rfl⟩ := statusByte_latches k c' hw
  exact ⟨t, ht, (statusByte_byteStep ht).bufAt_of_not_latched (lookup_ne_of_ne hl hc)⟩

/-- A data byte that comes while another channel is latched, or none. -/
theorem dataByte_other_channel {c : ChanId} {s : State} {p : Nat} (d : Payload) (hw : s.cfg.wellFormed = true)
    (htime : timely s.now) (hl : lookup s.cfg c = some p) (hc : ¬(s.curValid = true ∧ s.cur = c)) :
    ∃ t, dataByte (dataVal d) s = .next t ∧ t.bufAt p = s.bufAt p := by
  by_cases hv : s.curValid = true
  · obtain ⟨t, ht⟩ := dataByte_completes (dataVal d) hw htime
    refine ⟨t, ht, (dataByte_byteStep (isDataByte_dataVal d) ht).bufAt_of_not_latched ?_⟩
    rw [dataByte_cur ht]
    exact lookup_ne_of_ne hl fun h => hc ⟨hv, h⟩
  · exact ⟨s, dataByte_stray hw (.inl (Bool.eq_false_iff.mpr hv)), rfl⟩

/-- Settles O16: cell by cell of the table, then the bytes that do not reach the position. -/
theorem bufferFollowsTheTransitionTable : Obligations.BufferFollowsTheTransitionTable := by
  intro s p c hr htime hl
  have hw := hr.1
  refine ⟨statusByte_row .note hr hl, statusByte_row .gate hr hl, fun d hv hc => ?_,
    fun x y => reservedByteChangesNothing x y s hw, fun c' d hc => ⟨statusByte_other_channel .note hw hl hc,
      statusByte_other_channel .gate hw hl hc, dataByte_other_channel d hw htime hl⟩⟩
  subst hc
  obtain ⟨t, h⟩ := dataByte_completes (dataVal d) hw htime
  have opened {i : Fin CAP} (hi : i ≠ 0) (hx : (s.bufAt p).widx = i) : s.OpenAt p := ⟨hv, hl, hx ▸ hi⟩
  exact ⟨t, h, dataByte_row_idle hw h hl,
    fun hx => dataByte_row_note hw h (opened (by decide) hx) hx,
    fun hx => dataByte_row_gate_first hw h (opened (by decide) hx) hx,
    fun hx => dataByte_row_gate_second hw h htime (opened (by decide) hx) hx⟩

end Sys2Proof.Machine

/-! ### Data bytes before the first status byte (R132, R261) -/

namespace Sys2Proof.Machine

/-- A data byte begins no frame (R104). -/
theorem decode_dataByte {b : Byte} (hb : isDataByte b = true) (bs : List Byte) :
    decode (b :: bs) = .instr (.data (lowSeven b)) bs := by
  obtain ⟨d, rfl⟩ : ∃ d, b = dataVal d := ⟨lowSeven b, (dataVal_lowSeven b hb).symm⟩
  rw [lowSeven_dataVal]
  exact decodeOfEncodeIsTheInstruction (.data d) bs (fun _ _ _ h => nomatch h) (fun _ _ _ _ h => nomatch h)

/-- Before the first status byte a step takes a data byte from its call, and does no more. -/
theorem step_dataByte_of_not_latched {s : State} {b : StampedByte} (hw : s.cfg.wellFormed = true) (hv : s.curValid = false)
    (hb : isDataByte b.byte = true) (bs : List StampedByte) (t : Time) (rest : List Input) :
    step (s.takeEvent t (.feed (b :: bs) :: rest)) = .next (s.takeEvent b.time (pendingFeed bs rest)) := by
  have hd : decode ((b :: bs).map (·.byte)) = .instr (.data (lowSeven b.byte)) (bs.map (·.byte)) := decode_dataByte hb _
  exact (step_feed rfl hd).trans (dataByte_stray (s := s.takeEvent b.time (pendingFeed bs rest)) hw (.inl hv))

/-- What is left of a call of data bytes is discarded, one step a byte. -/
theorem runSteps_dataBytes_of_not_latched {s : State} (hw : s.cfg.wellFormed = true) (hv : s.curValid = false)
    (rest : List Input) {bytes : List StampedByte} (hb : ∀ b ∈ bytes, isDataByte b.byte = true) (t : Time) :
    ∃ t', runSteps bytes.length (s.takeEvent t (pendingFeed bytes rest)) = .next (s.takeEvent t' rest) := by
  induction bytes generalizing t with
  | nil => exact ⟨t, rfl⟩
  | cons b bs ih =>
    obtain ⟨hb, hbs⟩ := List.forall_mem_cons.mp hb
    obtain ⟨t', ht'⟩ := ih hbs b.time
    refine ⟨t', ?_⟩
    rw [List.length_cons, runSteps, pendingFeed, step_dataByte_of_not_latched hw hv hb, andThen_next, ht']

/-- Settles O50: the run of a whole call of data bytes, from the state in which the call is the next. -/
theorem strayDataNeverReachesTheScheduler : Obligations.StrayDataNeverReachesTheScheduler := by
  intro s bytes rest hw hv hb hne hin
  have hs : s = s.takeEvent s.now (pendingFeed bytes rest) := by
    rw [pendingFeed_eq_ite, if_neg hne, ← hin]
    rfl
  obtain ⟨t, ht⟩ := runSteps_dataBytes_of_not_latched hw hv rest hb s.now
  exact ⟨t, (core_run _ _).trans ((congrArg (runSteps bytes.length) hs).trans ht)⟩

end Sys2Proof.Machine

/-! ## Commands (spec 41_framer_commands.md)

The proofs about R160 to R164: the whole next state of a NOTE and of a GATE frame, the sample a GATE on the wire reads, and what
becomes of a command that a status byte cuts short. -/

/-! ### A whole NOTE frame (R160) -/

namespace Sys2Proof.Machine

/-- Of two writes of one buffer the second counts. -/
theorem State.setBuf_setBuf (s : State) (p : Nat) (a b : AsmBuf) : (s.setBuf p a).setBuf p b = s.setBuf p b := by
  simp only [State.setBuf, List.set_set]

theorem State.Ready.lt_bufs {s : State} {c : ChanId} {p : Nat} (hr : s.Ready) (hl : lookup s.cfg c = some p) :
    p < s.bufs.length := hr.2.1 ▸ lookup_lt hl

theorem State.Ready.lt_recs {s : State} {c : ChanId} {p : Nat} (hr : s.Ready) (hl : lookup s.cfg c = some p) :
    p < s.recs.length := hr.2.2 ▸ lookup_lt hl

theorem State.setRec_recAt_self {s : State} {p : Nat} (r : EventRec) (hp : p < s.recs.length) :
    (s.setRec p r).recAt p = r := (State.recAt_setRec p p r hp).trans (if_pos rfl)

/-- The buffer after the NOTE frame `c, n` (R160). -/
def AsmBuf.noteFrame (b : AsmBuf) (c : ChanId) (n : Payload) : AsmBuf :=
  { widx := 0
    slots := (b.slots.set 0 { tag := .note, val := statusVal .note c }).set 1 { tag := .data, val := dataVal n } }

/-- The state after the NOTE frame `c, n`, `c` being the channel of position `p` (R160, R180). -/
def State.noteFrame (s : State) (p : Nat) (c : ChanId) (n : Payload) : State :=
  { s with
    curValid := true, cur := c,
    bufs := s.bufs.set p ((s.bufAt p).noteFrame c n),
    recs := s.recs.set p { s.recAt p with noteValue := dataVal n },
    pwm := writeOut 0 s.pwm (s.cfg.entry p).pwm (dutyOf (s.cfg.entry p) (dataVal n)),
    effects := s.effects ++
      [.callNote c (dataVal n), .pwmWrite (s.cfg.entry p).pwm (dutyOf (s.cfg.entry p) (dataVal n))] }

theorem AsmBuf.opened_push_note (b : AsmBuf) (c : ChanId) (n : Payload) :
    (b.opened .note c).push 0 (dataVal n) = b.noteFrame c n := rfl

/-- The whole next state of a NOTE frame for a configured channel (R160). -/
theorem exec_note_eq {c : ChanId} {s : State} {p : Nat} (hr : s.Ready) (hl : lookup s.cfg c = some p) (n : Payload) :
    exec (.note c n) s = .next (s.noteFrame p c n) := by
  have hp := hr.lt_bufs hl
  rw [exec_note_some hr.1 hl hp, State.noteDone_eq, latch_setBuf_bufAt _ hp, AsmBuf.opened_push_note, State.setBuf_bufs,
    List.set_set]
  rfl

/-- Settles O17: the two units fill slots 0 and 1, and the duty is an entry of the table because the table is not empty. -/
theorem noteFrameSetsTheNote : Obligations.NoteFrameSetsTheNote := by
  refine fun c n s hr => ⟨fun hl => exec_note_none hr.1 hl, fun p hl => ?_⟩
  refine ⟨dutyOf (s.cfg.entry p) (dataVal n), ?_, exec_note_eq hr hl n⟩
  rw [← dataVal_toNat, dutyOf_mem hr.1 (lookup_lt hl)]

end Sys2Proof.Machine

/-! ### A whole GATE frame (R161) -/

namespace Sys2Proof.Machine

/-- A duration is the payloads of two data bytes (R106). -/
theorem exists_halves (d : Duration) : ∃ h l : Payload, h ++ l = d := ⟨_, _, duration_halves d⟩

/-- A GATE frame is its three bytes, the duration being the payloads of the two data bytes (R106, R161). -/
theorem exec_gate_append (c : ChanId) (h l : Payload) (s : State) :
    exec (.gate c (h ++ l)) s = andThen (andThen (exec (.stGate c) s) (exec (.data h))) (exec (.data l)) := by
  change andThen (statusByte .gate c s) (fun s =>
    andThen (dataByte (dataVal ((h ++ l).extractLsb' 7 7)) s) (dataByte (dataVal ((h ++ l).extractLsb' 0 7)))) = _
  rw [andThen_assoc, BitVec.extractLsb'_append_eq_left, BitVec.extractLsb'_append_eq_right]
  rfl

theorem gatePayload_dataVal (h l : Payload) : gatePayload (dataVal h) (dataVal l) = h ++ l := by
  apply BitVec.eq_of_toNat_eq
  have := h.isLt
  have := l.isLt
  rw [gatePayload_toNat, dataVal_toNat, dataVal_toNat, BitVec.toNat_append, ← Nat.shiftLeft_add_eq_or_of_lt l.isLt,
    Nat.shiftLeft_eq]
  omega

/-- The buffer after the status byte of a GATE and its first data byte `h`: `G2` (R138). -/
def AsmBuf.halfGate (b : AsmBuf) (c : ChanId) (h : Payload) : AsmBuf := (b.opened .gate c).push 2 (dataVal h)

section
variable (b : AsmBuf) (c : ChanId) (h : Payload)

@[simp] theorem AsmBuf.halfGate_widx : (b.halfGate c h).widx = 2 := rfl

theorem AsmBuf.halfGate_slot_zero : (b.halfGate c h).slots[0] = { tag := .gate, val := statusVal .gate c } :=
  (AsmBuf.push_slot_zero (b := b.opened .gate c) Fin.zero_ne_one.symm _ _).trans (b.opened_slot_zero .gate c)

theorem AsmBuf.halfGate_slot_one : (b.halfGate c h).slots[1] = { tag := .data, val := dataVal h } :=
  AsmBuf.push_slot_self (i := 1) (by decide) rfl _ _

end

/-- The state after the status byte of a GATE and its first data byte `h`, `c` being the channel of position `p`. -/
def State.halfGate (s : State) (p : Nat) (c : ChanId) (h : Payload) : State :=
  (s.latch c).setBuf p ((s.bufAt p).halfGate c h)

/-- The buffer after the GATE frame `c, {h, l}` (R161). -/
def AsmBuf.gateFrame (b : AsmBuf) (c : ChanId) (h l : Payload) : AsmBuf :=
  { widx := 0
    slots := ((b.slots.set 0 { tag := .gate, val := statusVal .gate c }).set 1 { tag := .data, val := dataVal h }).set 2
      { tag := .data, val := dataVal l } }

/-- The state after the GATE frame `c, {h, l}`, `c` being the channel of position `p`, its window ending at `e` (R161, R181). -/
def State.gateFrame (s : State) (p : Nat) (c : ChanId) (h l : Payload) (e : Time) : State :=
  { s with
    curValid := true, cur := c,
    bufs := s.bufs.set p ((s.bufAt p).gateFrame c h l),
    recs := s.recs.set p { s.recAt p with gateStart := s.now, gateEnd := e, gateState := .notStarted },
    effects := s.effects ++ [.callGate c (h ++ l)] }

theorem AsmBuf.halfGate_push (b : AsmBuf) (c : ChanId) (h l : Payload) :
    (b.halfGate c h).push 0 (dataVal l) = b.gateFrame c h l := rfl

section
variable {c : ChanId} {s : State} {p : Nat} (hr : s.Ready) (hl : lookup s.cfg c = some p)
include hr hl

/-- The first data byte of a GATE is stored (R132, R138). -/
theorem exec_stGate_data_eq (h : Payload) :
    andThen (exec (.stGate c) s) (exec (.data h)) = .next (s.halfGate p c h) := by
  have hp := hr.lt_bufs hl
  have hb := latch_setBuf_bufAt (c := c) ((s.bufAt p).opened .gate c) hp
  have hstore := dataByte_stores (v := dataVal h) (s := (s.latch c).setBuf p ((s.bufAt p).opened .gate c)) hr.1
    (openAt_opened hl hp) (by rw [hb, AsmBuf.opened_slot_zero]; rfl)
  rw [hb, State.setBuf_setBuf] at hstore
  exact (congrArg (andThen · (exec (.data h))) (statusByte_some hr.1 hl)).trans hstore

theorem State.halfGate_bufAt (h : Payload) : (s.halfGate p c h).bufAt p = (s.bufAt p).halfGate c h :=
  latch_setBuf_bufAt _ (hr.lt_bufs hl)

theorem State.halfGate_openAt (h : Payload) : (s.halfGate p c h).OpenAt p where
  valid := rfl
  found := hl
  busy := by rw [State.halfGate_bufAt hr hl, AsmBuf.halfGate_widx]; decide

theorem State.halfGate_gateDur (h l : Payload) : (s.halfGate p c h).gateDur p (dataVal l) = h ++ l := by
  rw [State.gateDur, State.halfGate_bufAt hr hl, AsmBuf.halfGate_slot_one, gatePayload_dataVal]

theorem State.halfGate_tag (h : Payload) : ((s.halfGate p c h).bufAt p).slots[0].tag = .gate := by
  rw [State.halfGate_bufAt hr hl, AsmBuf.halfGate_slot_zero]

theorem State.halfGate_widx (h : Payload) : ((s.halfGate p c h).bufAt p).widx = 2 := by
  rw [State.halfGate_bufAt hr hl, AsmBuf.halfGate_widx]

/-- A frame whose window fits (R161, R181). -/
theorem exec_gate_eq {h l : Payload} {e : Time} (he : gateEndOf s.now (h ++ l) = some e) :
    exec (.gate c (h ++ l)) s = .next (s.gateFrame p c h l e) := by
  have hdur := State.halfGate_gateDur hr hl h l
  rw [exec_gate_append, exec_stGate_data_eq hr hl, andThen_next, exec_data,
    dataByte_gate (s := s.halfGate p c h) hr.1 (State.halfGate_openAt hr hl h) (State.halfGate_tag hr hl h)
      (State.halfGate_widx hr hl h) (hdur.symm ▸ he),
    State.gateDone, hdur, State.halfGate_bufAt hr hl, AsmBuf.halfGate_push, State.halfGate, State.setBuf_setBuf]
  rfl

theorem State.gateFrame_recAt (h l : Payload) (e : Time) :
    (s.gateFrame p c h l e).recAt p = { s.recAt p with gateStart := s.now, gateEnd := e, gateState := .notStarted } :=
  State.setRec_recAt_self (s := s) _ (hr.lt_recs hl)

theorem State.gateFrame_bufAt (h l : Payload) (e : Time) :
    (s.gateFrame p c h l e).bufAt p = (s.bufAt p).gateFrame c h l := State.setBuf_bufAt_self (s := s) _ (hr.lt_bufs hl)

/-- A frame whose window does not fit (R185(d), U1). -/
theorem exec_gate_overflow {h l : Payload} (he : gateEndOf s.now (h ++ l) = none) :
    exec (.gate c (h ++ l)) s = .refused .timestampOverflow := by
  rw [exec_gate_append, exec_stGate_data_eq hr hl, andThen_next, exec_data]
  exact dataByte_overflow (s := s.halfGate p c h) hr.1 (State.halfGate_openAt hr hl h) (State.halfGate_tag hr hl h)
    (State.halfGate_widx hr hl h) ((State.halfGate_gateDur hr hl h l).symm ▸ he)

end

/-- A GATE frame touches only the position of its channel (R161). -/
theorem State.gateFrame_at_ne {s : State} {p q : Nat} (hq : q ≠ p) (c : ChanId) (h l : Payload) (e : Time) :
    (s.gateFrame p c h l e).bufAt q = s.bufAt q ∧ (s.gateFrame p c h l e).recAt q = s.recAt q :=
  ⟨State.bufAt_setBuf_ne (s := s) _ hq, State.recAt_setRec_ne (s := s) _ hq⟩

/-- Settles O18: the duration is its two halves put together, and its window fits or does not. -/
theorem gateFrameArmsThePulse : Obligations.GateFrameArmsThePulse := by
  refine fun c d s hr => ⟨fun hl => exec_gate_none hr.1 hl, fun p hl => ?_⟩
  obtain ⟨h, l, rfl⟩ := exists_halves d
  rw [BitVec.extractLsb'_append_eq_left, BitVec.extractLsb'_append_eq_right]
  exact ⟨fun hfits => exec_gate_eq hr hl (gateEndOf_eq_ofNat hfits),
    fun hover => exec_gate_overflow hr hl (gateEndOf_overflow (Nat.not_lt.mpr hover))⟩

/-! #### The sample a GATE on the wire reads (R161) -/

/-- The bytes of a GATE frame as numbers (R101, R102, R104). -/
theorem encode_gate_eq_ofNat (c : ChanId) (d : Duration) :
    encode (.gate c d) =
      [BitVec.ofNat 8 (0x90 + c.toNat), BitVec.ofNat 8 (d.toNat / 128), BitVec.ofNat 8 (d.toNat % 128)] := by
  have hstatus : (0x9#4 ++ c : Byte) = BitVec.ofNat 8 (0x90 + c.toNat) :=
    (by decide : ∀ c : ChanId, (0x9#4 ++ c : Byte) = BitVec.ofNat 8 (0x90 + c.toNat)) c
  have hd := d.isLt
  have hhigh : dataVal (d.extractLsb' 7 7) = BitVec.ofNat 8 (d.toNat / 128) := by
    apply BitVec.eq_of_toNat_eq
    rw [dataVal_toNat, BitVec.extractLsb'_toNat, BitVec.toNat_ofNat, Nat.shiftRight_eq_div_pow]
    omega
  have hlow : dataVal (d.extractLsb' 0 7) = BitVec.ofNat 8 (d.toNat % 128) := by
    apply BitVec.eq_of_toNat_eq
    rw [dataVal_toNat, BitVec.extractLsb'_toNat, BitVec.toNat_ofNat, Nat.shiftRight_zero]
    omega
  rw [← hstatus, ← hhigh, ← hlow]
  rfl

/-- Settles O19: the three bytes decode to the frame, which is run with the sample of the last of them. -/
theorem gateFrameReadsItsLastSample : Obligations.GateFrameReadsItsLastSample := by
  intro s c d t0 t1 t2 rest p hr hl hfits hin
  have hdec : decode [BitVec.ofNat 8 (0x90 + c.toNat), BitVec.ofNat 8 (d.toNat / 128), BitVec.ofNat 8 (d.toNat % 128)] =
      .instr (.gate c d) [] := encode_gate_eq_ofNat c d ▸ decode_encode (.gate c d)
  have hstep : step s = exec (.gate c d) (s.takeEvent t2 rest) := step_feed hin hdec
  obtain ⟨h, l, rfl⟩ := exists_halves d
  have hr' : (s.takeEvent t2 rest).Ready := hr
  refine ⟨_, hstep.trans (exec_gate_eq hr' hl (gateEndOf_eq_ofNat hfits)), rfl, ?_⟩
  rw [State.gateFrame_recAt hr' hl]
  exact ⟨rfl, (BitVec.toNat_ofNat _ _).trans (Nat.mod_eq_of_lt hfits), rfl, rfl, rfl⟩

end Sys2Proof.Machine

/-! ### Interrupted commands (R162 to R164) -/

namespace Sys2Proof.Machine

/-- The slots after a NOTE frame are those of the frame and the old slot 2. -/
theorem AsmBuf.noteFrame_congr {a b : AsmBuf} (h : a.slots[2] = b.slots[2]) (c : ChanId) (n : Payload) :
    a.noteFrame c n = b.noteFrame c n := by
  simp only [AsmBuf.noteFrame, AsmBuf.mk.injEq, true_and]
  ext i hi
  match i, hi with
  | 0, _ => simp
  | 1, _ => simp
  | 2, _ => simpa using h

theorem AsmBuf.opened_slot_two (b : AsmBuf) (k : Kind) (c : ChanId) : (b.opened k c).slots[2] = b.slots[2] :=
  Vector.getElem_set_ne (by decide) (by decide) (by decide)

theorem AsmBuf.halfGate_slot_two (b : AsmBuf) (c : ChanId) (h : Payload) : (b.halfGate c h).slots[2] = b.slots[2] :=
  (AsmBuf.push_slot_ne (by decide) (by rw [AsmBuf.opened_widx]; decide) _ _).trans (b.opened_slot_two .gate c)

/-- A GATE frame fills the buffer (R161). -/
theorem AsmBuf.gateFrame_congr (a b : AsmBuf) (c : ChanId) (h l : Payload) : a.gateFrame c h l = b.gateFrame c h l := by
  simp only [AsmBuf.gateFrame, AsmBuf.mk.injEq, true_and]
  ext i hi
  match i, hi with
  | 0, _ => simp
  | 1, _ => simp
  | 2, _ => simp

/-- A command on the channel `c` of position `p` was begun in `s` and not completed: all that `o` differs in from `s` is the
latch and the buffer, whose last slot only the last byte of a GATE writes. -/
def State.LeavesOpen (s : State) (p : Nat) (c : ChanId) (o : Result) : Prop :=
  ∃ b, o = .next ((s.latch c).setBuf p b) ∧ b.slots[2] = (s.bufAt p).slots[2]

theorem State.Ready.latch_setBuf {s : State} (hr : s.Ready) (c : ChanId) (p : Nat) (b : AsmBuf) :
    ((s.latch c).setBuf p b).Ready := ⟨hr.1, List.length_set.trans hr.2.1, hr.2.2⟩

section
variable {c : ChanId} {s : State} {p : Nat} (hr : s.Ready) (hl : lookup s.cfg c = some p)
include hr hl

theorem statusByte_leavesOpen (k : Kind) : s.LeavesOpen p c (statusByte k c s) :=
  ⟨_, statusByte_some hr.1 hl, AsmBuf.opened_slot_two _ k c⟩

theorem exec_stGate_data_leavesOpen (x : Payload) : s.LeavesOpen p c (andThen (exec (.stGate c) s) (exec (.data x))) :=
  ⟨_, exec_stGate_data_eq hr hl x, AsmBuf.halfGate_slot_two _ c x⟩

section
variable {o : Result} (ho : s.LeavesOpen p c o)
include ho

/-- A NOTE frame that aborts a command leads to the very state it leads to alone (R162). -/
theorem State.LeavesOpen.andThen_note (n : Payload) : andThen o (exec (.note c n)) = exec (.note c n) s := by
  obtain ⟨b, rfl, hb⟩ := ho
  rw [andThen_next, exec_note_eq (hr.latch_setBuf c p b) hl, exec_note_eq hr hl, State.noteFrame,
    latch_setBuf_bufAt b (hr.lt_bufs hl), AsmBuf.noteFrame_congr hb, State.setBuf_bufs, List.set_set]
  rfl

/-- A GATE frame that aborts a command leads to the very state it leads to alone (R162). -/
theorem State.LeavesOpen.andThen_gate {h l : Payload} {e : Time} (he : gateEndOf s.now (h ++ l) = some e) :
    andThen o (exec (.gate c (h ++ l))) = exec (.gate c (h ++ l)) s := by
  obtain ⟨b, rfl, -⟩ := ho
  rw [andThen_next, exec_gate_eq (hr.latch_setBuf c p b) hl he, exec_gate_eq hr hl he, State.gateFrame,
    latch_setBuf_bufAt b (hr.lt_bufs hl), AsmBuf.gateFrame_congr b (s.bufAt p), State.setBuf_bufs, List.set_set]
  rfl

end

end

/-- Settles O20: each of the three runs begun leaves its command open, and either frame writes over what is left of it. -/
theorem interruptedCommandLeavesNoTrace : Obligations.InterruptedCommandLeavesNoTrace := by
  intro c d x n s p hr hl
  have note := statusByte_leavesOpen hr hl .note
  have gate := statusByte_leavesOpen hr hl .gate
  have half := exec_stGate_data_leavesOpen hr hl x
  constructor
  · have alone := exec_note_eq hr hl n
    exact ⟨_, _, _, alone, rfl, (note.andThen_note hr hl n).trans alone, (gate.andThen_note hr hl n).trans alone,
      (half.andThen_note hr hl n).trans alone⟩
  · intro hfits
    obtain ⟨h, l, rfl⟩ := exists_halves d
    have he := gateEndOf_eq_ofNat hfits
    have alone := exec_gate_eq hr hl he
    exact ⟨_, alone, rfl, (note.andThen_gate hr hl he).trans alone, (gate.andThen_gate hr hl he).trans alone,
      (half.andThen_gate hr hl he).trans alone⟩

/-- Settles O21: after the status byte for `a` the other three bytes are a GATE frame for `b`, which touches the position of `b`
only. -/
theorem dataBytesGoToTheLatchedChannel : Obligations.DataBytesGoToTheLatchedChannel := by
  intro a b x y s p q hr ht hab hla hlb
  have hpq : p ≠ q := fun h => hab (lookup_inj hla (h ▸ hlb))
  have ha : exec (.stNote a) s = .next ((s.latch a).setBuf p ((s.bufAt p).opened .note a)) := statusByte_some hr.1 hla
  have hr' := hr.latch_setBuf a p ((s.bufAt p).opened .note a)
  rw [ha, andThen_next, ← exec_gate_append]
  refine ⟨_, exec_gate_eq hr' hlb (gateEndOf_timely ht (x ++ y)), rfl, ?_⟩
  obtain ⟨hbuf, hrec⟩ := State.gateFrame_at_ne (s := (s.latch a).setBuf p ((s.bufAt p).opened .note a)) hpq b x y
    (s.now + (x ++ y).setWidth 32)
  rw [hbuf, hrec, latch_setBuf_bufAt _ (hr.lt_bufs hla), AsmBuf.opened_slot_zero, State.gateFrame_bufAt hr' hlb,
    State.gateFrame_recAt hr' hlb]
  exact ⟨rfl, rfl, rfl, rfl, rfl⟩

/-- Settles O22: the status byte for `u` moves the latch alone, and no data byte reaches a position after it. -/
theorem unconfiguredStatusByteTakesTheDataAway : Obligations.UnconfiguredStatusByteTakesTheDataAway := by
  intro a u h x l s p hr hla hlu
  have hu : exec (.stNote u) (s.halfGate p a h) = .next ((s.halfGate p a h).latch u) := statusByte_none hr.1 hlu
  have stray (d : Payload) : exec (.data d) ((s.halfGate p a h).latch u) = .next ((s.halfGate p a h).latch u) :=
    dataByte_unconfigured (s := (s.halfGate p a h).latch u) hr.1 hlu
  rw [exec_stGate_data_eq hr hla, andThen_next, hu, andThen_next, stray, andThen_next, stray]
  rfl

end Sys2Proof.Machine

/-! ## Scheduler operations (spec 42_scheduler_ops.md)

The proofs about R180 to R185: the whole next state of the two operations, a pulse armed again while it runs, and the premise
under which no instruction is refused. -/

/-! ### The two operations (R180, R181, R183) -/

namespace Sys2Proof.Machine

/-- Settles O25: the table of a configured channel is not empty, so the wrapped index finds an entry of it. -/
theorem setNoteEventWritesTheDuty : Obligations.SetNoteEventWritesTheDuty := fun _ v s hw =>
  ⟨setNoteEvent_none, fun p hl => ⟨dutyOf (s.cfg.entry p) v, dutyOf_mem hw (lookup_lt hl) v, setNoteEvent_some hl⟩⟩

/-- Settles O26: the end of the window is a sum that fits or does not. -/
theorem setGateEventArmsTheWindow : Obligations.SetGateEventArmsTheWindow := fun _ _ _ _ =>
  ⟨setGateEvent_none, fun _ hl =>
    ⟨fun hfits => setGateEvent_some hl (gateEndOf_eq_ofNat hfits),
      fun hover => setGateEvent_overflow hl (gateEndOf_overflow (Nat.not_lt.mpr hover))⟩⟩

end Sys2Proof.Machine

/-! ### A `Tick` seen from one position (R200, R201, R203) -/

namespace Sys2Proof.Machine

section
variable {s t : State} {p : Nat} (hr : s.Ready) (h : execTick s = .next t)
include hr h

theorem execTick_ready : t.Ready := by
  obtain ⟨hcfg, hbufs, hrecs⟩ := execTick_sameElements h
  exact ⟨hcfg ▸ hr.1, hbufs.trans (hcfg ▸ hr.2.1), hrecs.trans (hcfg ▸ hr.2.2)⟩

/-- The record takes one row, whatever rows the other positions take (R200). -/
theorem execTick_recAt (hp : p < s.cfg.nch) :
    t.recAt p = { s.recAt p with gateState := (gateRow (s.recAt p) s.now).next } := by
  obtain ⟨-, rfl⟩ := execTick_eq_next.mp h
  rw [tickUpTo_recAt _ _ _ hr.2.2.ge, if_pos hp]

/-- A row with an edge drives the pin of the position (R201, R203). -/
theorem execTick_drives {l : Level} (hp : p < s.cfg.nch) (hl : (gateRow (s.recAt p) s.now).edge = some l) :
    .gateWrite (s.cfg.entry p).pin l ∈ t.effects.drop s.effects.length := by
  obtain ⟨-, rfl⟩ := execTick_eq_next.mp h
  rw [tickUpTo_effects _ _ _ hr.2.2.ge, List.drop_left]
  exact List.mem_flatMap.mpr ⟨p, List.mem_range.mpr hp, by rw [hl]; exact List.mem_cons_self⟩

end

theorem reached_iff {t bound : Time} : reached t bound = true ↔ bound.toNat ≤ t.toNat := decide_eq_true_iff

/-- An armed pulse starts at a sample that is not before its window (R201). -/
theorem gateRow_starts {r : EventRec} {t : Time} (hg : r.gateState = .notStarted) (ht : r.gateStart ≤ t) :
    gateRow r t = .start := by
  rw [gateRow, hg]
  exact if_pos (reached_iff.mpr ht)

/-- A running pulse is over once the sample reaches its end (R203, R204). -/
theorem gateRow_running_next {r : EventRec} {t : Time} (hg : r.gateState = .running) :
    (gateRow r t).next = if r.gateEnd.toNat ≤ t.toNat then .finished else .running := by
  rw [gateRow, hg]
  exact (apply_ite GateRow.next _ _ _).trans (if_congr reached_iff rfl rfl)

section
variable {s : State} {p : Nat} (hr : s.Ready) (hp : p < s.cfg.nch)
include hr hp

/-- The `Tick` that starts an armed pulse drives its pin HIGH (R201). -/
theorem execTick_starts (hg : (s.recAt p).gateState = .notStarted) (ht : (s.recAt p).gateStart ≤ s.now) :
    ∃ t, execTick s = .next t ∧ t.Ready ∧ t.cfg = s.cfg ∧ t.recAt p = { s.recAt p with gateState := .running } ∧
      .gateWrite (s.cfg.entry p).pin .high ∈ t.effects.drop s.effects.length := by
  have hrow := gateRow_starts hg ht
  have h := execTick_eq hr.1
  refine ⟨_, h, execTick_ready hr h, tickUpTo_cfg _ _ _, ?_, execTick_drives hr h hp (by rw [hrow]; rfl)⟩
  rw [execTick_recAt hr h hp, hrow, GateRow.next]

/-- A `Tick` ends a running pulse exactly when it reaches the end of the window (R203, R204). -/
theorem execTick_of_running (hg : (s.recAt p).gateState = .running) :
    ∃ t, execTick s = .next t ∧
      (t.recAt p).gateState = if (s.recAt p).gateEnd.toNat ≤ s.now.toNat then .finished else .running := by
  have h := execTick_eq hr.1
  refine ⟨_, h, ?_⟩
  rw [execTick_recAt hr h hp, gateRow_running_next hg]

end

end Sys2Proof.Machine

/-! ### A pulse armed again while it runs (R184) -/

namespace Sys2Proof.Machine

/-- `setGateEvent` arms the window in any gate state (R181, R184). -/
theorem setGateEvent_arms {c : ChanId} {d : Duration} {a e : Time} {s : State} {p : Nat} (hr : s.Ready)
    (hl : lookup s.cfg c = some p) (he : gateEndOf a d = some e) :
    ∃ t, setGateEvent c d a s = .next t ∧ t.Ready ∧ t.cfg = s.cfg ∧ t.pins = s.pins ∧
      t.recAt p = { s.recAt p with gateStart := a, gateEnd := e, gateState := .notStarted } :=
  ⟨_, setGateEvent_some hl he, ⟨hr.1, hr.2.1, List.length_set.trans hr.2.2⟩, rfl, rfl,
    State.setRec_recAt_self _ (hr.lt_recs hl)⟩

/-- Settles O31: the gate state before is overwritten, so the pulse starts anew and the end of the new window decides. -/
theorem rearmingPreemptsTheRunningPulse : Obligations.RearmingPreemptsTheRunningPulse := by
  intro c d s a t1 t2 p hr hl hfits ha _
  have hp : p < s.cfg.nch := lookup_lt hl
  obtain ⟨s1, hs1, hr1, hcfg1, hpins, hrec1⟩ := setGateEvent_arms hr hl (gateEndOf_eq_ofNat hfits)
  have harmed : (s1.recAt p).gateState = .notStarted := congrArg EventRec.gateState hrec1
  have hstart : (s1.recAt p).gateStart = a := congrArg EventRec.gateStart hrec1
  obtain ⟨s2, hs2, hr2, hcfg2, hrec2, hhigh⟩ :=
    execTick_starts (s := { s1 with now := t1 }) hr1 (hcfg1 ▸ hp) harmed (hstart.trans_le ha)
  have hrunning : (s2.recAt p).gateState = .running := congrArg EventRec.gateState hrec2
  have hend : (s2.recAt p).gateEnd = BitVec.ofNat 32 (a.toNat + d.toNat) :=
    (congrArg EventRec.gateEnd hrec2).trans (congrArg EventRec.gateEnd hrec1)
  obtain ⟨s3, hs3, hfinal⟩ :=
    execTick_of_running (s := { s2 with now := t2 }) hr2 (hcfg2 ▸ hcfg1 ▸ hp) hrunning
  refine ⟨s1, s2, s3, hs1, hpins, harmed, hs2, hrunning, hcfg1 ▸ hhigh, hs3, ?_⟩
  rw [← Nat.mod_eq_of_lt hfits, ← BitVec.toNat_ofNat, ← hend]
  exact hfinal

end Sys2Proof.Machine

/-! ### Every instruction answers a next state (R185(d), R230) -/

namespace Sys2Proof.Machine

/-- What an instruction needs to answer a next state: a well-formed configuration (R7) and a sample the host may supply
(R185(d)). -/
def State.Served (s : State) : Prop := s.cfg.wellFormed = true ∧ timely s.now

theorem ByteStep.served {s t : State} (h : ByteStep s t) (hs : s.Served) : t.Served := ⟨h.cfg ▸ hs.1, h.now ▸ hs.2⟩

section
variable {s : State} (hs : s.Served)
include hs

theorem statusByte_served (k : Kind) (c : ChanId) : ∃ t, statusByte k c s = .next t ∧ t.Served := by
  obtain ⟨t, ht, -⟩ := statusByte_latches k c hs.1
  exact ⟨t, ht, (statusByte_byteStep ht).served hs⟩

theorem dataByte_served (d : Payload) : ∃ t, dataByte (dataVal d) s = .next t ∧ t.Served := by
  obtain ⟨t, ht⟩ := dataByte_completes (dataVal d) hs.1 hs.2
  exact ⟨t, ht, (dataByte_byteStep (isDataByte_dataVal d) ht).served hs⟩

/-- Each byte of a frame leaves what the next one needs. -/
theorem exec_served (i : Instr) : ∃ t, exec i s = .next t ∧ t.Served := by
  cases i with
  | data d => exact dataByte_served hs d
  | stNote c => exact statusByte_served hs .note c
  | stGate c => exact statusByte_served hs .gate c
  | rsvAB x => exact ⟨s, reservedByte_discarded hs.1, hs⟩
  | rsvCF x => exact ⟨s, reservedByte_discarded hs.1, hs⟩
  | note c n =>
    obtain ⟨t, ht, hs⟩ := statusByte_served hs .note c
    rw [exec, execNote, ht, andThen_next]
    exact dataByte_served hs n
  | gate c d =>
    obtain ⟨t, ht, hs⟩ := statusByte_served hs .gate c
    obtain ⟨u, hu, hs⟩ := dataByte_served hs (d.extractLsb' 7 7)
    rw [exec, execGate, ht, andThen_next, hu, andThen_next]
    exact dataByte_served hs _

end

/-- Settles O45: only the window of a GATE can fail to fit, and at such a sample every window fits. -/
theorem everyInstructionCompletes : Obligations.EveryInstructionCompletes := by
  intro i s hw ht
  obtain ⟨t, hexec, -⟩ := exec_served ⟨hw, ht⟩ i
  exact ⟨t, hexec⟩

end Sys2Proof.Machine

/-! ## Scheduler tick (spec 43_scheduler_tick.md)

The proofs about R200 to R209: the row each record takes, the two `Tick`s of a zero-length gate, and the events that move a gate
state. -/

/-! ### The tick table (R200 to R205, R208) -/

namespace Sys2Proof.Machine

section
variable {r : EventRec} (t : Time)

theorem gateRow_of_notStarted (hg : r.gateState = .notStarted) :
    gateRow r t = if r.gateStart.toNat ≤ t.toNat then .start else .wait := by
  rw [gateRow, hg]
  exact if_congr reached_iff rfl rfl

theorem gateRow_of_running (hg : r.gateState = .running) :
    gateRow r t = if r.gateEnd.toNat ≤ t.toNat then .finish else .hold := by
  rw [gateRow, hg]
  exact if_congr reached_iff rfl rfl

theorem gateRow_of_finished (hg : r.gateState = .finished) : gateRow r t = .done := by rw [gateRow, hg]

end

/-- A row that moves the gate state moves it one place along `NotStarted`, `Running`, `Finished` (R207). -/
theorem gateRow_next_of_ne {r : EventRec} {t : Time} (h : (gateRow r t).next ≠ r.gateState) :
    (r.gateState = .notStarted ∧ (gateRow r t).next = .running) ∨
      (r.gateState = .running ∧ (gateRow r t).next = .finished) := by
  cases hg : r.gateState with
  | notStarted =>
    rw [gateRow_of_notStarted t hg] at h ⊢
    split at h
    · next hs => exact .inl ⟨rfl, by rw [if_pos hs]; rfl⟩
    · exact absurd hg.symm h
  | running =>
    rw [gateRow_of_running t hg] at h ⊢
    split at h
    · next he => exact .inr ⟨rfl, by rw [if_pos he]; rfl⟩
    · exact absurd hg.symm h
  | finished =>
    rw [gateRow_of_finished t hg] at h
    exact absurd hg.symm h

/-- A `Tick` writes only records, pins and effects (R200). -/
theorem tickUpTo_frame (t : Time) (n : Nat) (s : State) :
    tickUpTo t n s =
      { s with recs := (tickUpTo t n s).recs, pins := (tickUpTo t n s).pins, effects := (tickUpTo t n s).effects } :=
  (State.mk.injEq ..).mpr ⟨tickUpTo_cfg t n s, tickUpTo_curValid t n s, tickUpTo_cur t n s, tickUpTo_bufs t n s, rfl,
    tickUpTo_pwm t n s, rfl, tickUpTo_input t n s, tickUpTo_now t n s, rfl⟩

/-- Settles O28: each record takes the row of its gate state, and the effects are the edges of these rows. -/
theorem tickAppliesTheTransitionTable : Obligations.TickAppliesTheTransitionTable := by
  intro s hr
  have h := execTick_eq hr.1
  refine ⟨_, h, fun p hp => ?_, ?_, tickUpTo_frame _ _ _, tickUpTo_recs_length _ _ _⟩
  · rw [execTick_recAt hr h hp]
    cases hg : (s.recAt p).gateState with
    | notStarted => rw [gateRow_of_notStarted _ hg, apply_ite GateRow.next]; rfl
    | running => rw [gateRow_of_running _ hg, apply_ite GateRow.next]; rfl
    | finished => rw [gateRow_of_finished _ hg]; rfl
  · rw [tickUpTo_effects _ _ _ hr.2.2.ge]
    congr 2
    funext p
    cases hg : (s.recAt p).gateState with
    | notStarted => rw [gateRow_of_notStarted _ hg]; split <;> rfl
    | running => rw [gateRow_of_running _ hg]; split <;> rfl
    | finished => rw [gateRow_of_finished _ hg]; rfl

end Sys2Proof.Machine

/-! ### A zero-length gate (R206, R266) -/

namespace Sys2Proof.Machine

/-- The window of a zero-length gate ends at its start, whatever the sample. -/
theorem gateEndOf_zero (a : Time) : gateEndOf a 0 = some a :=
  (gateEndOf_fits (d := 0) a.isLt).trans (congrArg some (BitVec.add_zero a))

/-- The `Tick` that ends a running pulse drives its pin LOW (R203). -/
theorem execTick_finishes {s : State} {p : Nat} (hr : s.Ready) (hp : p < s.cfg.nch)
    (hg : (s.recAt p).gateState = .running) (ht : (s.recAt p).gateEnd ≤ s.now) :
    ∃ t, execTick s = .next t ∧ (t.recAt p).gateState = .finished ∧
      .gateWrite (s.cfg.entry p).pin .low ∈ t.effects.drop s.effects.length := by
  have hrow : gateRow (s.recAt p) s.now = .finish := (gateRow_of_running _ hg).trans (if_pos ht)
  have h := execTick_eq hr.1
  refine ⟨_, h, ?_, execTick_drives hr h hp (by rw [hrow]; rfl)⟩
  rw [execTick_recAt hr h hp, hrow, GateRow.next]

/-- Settles O30: the first `Tick` reaches the start and takes one row, so the end, though reached, is left to the second. -/
theorem zeroLengthGateTakesTwoTicks : Obligations.ZeroLengthGateTakesTwoTicks := by
  intro c s a t1 t2 p hr hl ha ht
  have hp : p < s.cfg.nch := lookup_lt hl
  obtain ⟨s1, hs1, hr1, hcfg1, -, hrec1⟩ := setGateEvent_arms hr hl (gateEndOf_zero a)
  have harmed : (s1.recAt p).gateState = .notStarted := congrArg EventRec.gateState hrec1
  have hstart : (s1.recAt p).gateStart = a := congrArg EventRec.gateStart hrec1
  obtain ⟨s2, hs2, hr2, hcfg2, hrec2, hhigh⟩ :=
    execTick_starts (s := { s1 with now := t1 }) hr1 (hcfg1 ▸ hp) harmed (hstart.trans_le ha)
  have hrunning : (s2.recAt p).gateState = .running := congrArg EventRec.gateState hrec2
  have hend : (s2.recAt p).gateEnd = a :=
    (congrArg EventRec.gateEnd hrec2).trans (congrArg EventRec.gateEnd hrec1)
  have hcfg : s2.cfg = s.cfg := hcfg2.trans hcfg1
  obtain ⟨s3, hs3, hfinished, hlow⟩ :=
    execTick_finishes (s := { s2 with now := t2 }) hr2 (hcfg ▸ hp) hrunning (hend.trans_le (BitVec.le_trans ha ht))
  exact ⟨s1, s2, s3, hs1, hs2, hrunning, hcfg1 ▸ hhigh, hs3, hfinished, hcfg ▸ hlow⟩

end Sys2Proof.Machine

/-! ### The events that move a gate state (R207) -/

namespace Sys2Proof.Machine

/-- From `s` to `t` effects were only appended, and if the gate state of position `p` moved, then to `NotStarted`, by a call of
`setGateEvent` for the channel of `p` that stands among these effects. -/
structure State.MovesOnlyByArming (s t : State) (p : Nat) : Prop where
  cfg : t.cfg = s.cfg
  moves : ∃ new, t.effects = s.effects ++ new ∧
    ((t.recAt p).gateState = (s.recAt p).gateState ∨
      ((t.recAt p).gateState = .notStarted ∧ ∃ c d, lookup s.cfg c = some p ∧ .callGate c d ∈ new))

namespace State.MovesOnlyByArming
variable {s t u : State} {p : Nat}

theorem of_gateState_eq (hc : t.cfg = s.cfg) {new : List Effect} (he : t.effects = s.effects ++ new)
    (hg : (t.recAt p).gateState = (s.recAt p).gateState) : s.MovesOnlyByArming t p :=
  ⟨hc, new, he, .inl hg⟩

theorem refl (s : State) (p : Nat) : s.MovesOnlyByArming s p :=
  of_gateState_eq rfl (List.append_nil _).symm rfl

/-- What moved the gate state last is what counts. -/
theorem trans (h : s.MovesOnlyByArming t p) (h' : t.MovesOnlyByArming u p) : s.MovesOnlyByArming u p := by
  obtain ⟨hcfg, new, hnew, hgate⟩ := h
  obtain ⟨hcfg', new', hnew', hgate'⟩ := h'
  refine ⟨hcfg'.trans hcfg, new ++ new', by rw [hnew', hnew, List.append_assoc], ?_⟩
  rcases hgate' with hkept' | ⟨harmed', c, d, hl, hcall⟩
  · rw [hkept']
    exact hgate.imp_right fun ⟨harmed, c, d, hl, hcall⟩ => ⟨harmed, c, d, hl, List.mem_append_left _ hcall⟩
  · exact .inr ⟨harmed', c, d, hcfg ▸ hl, List.mem_append_right _ hcall⟩

end State.MovesOnlyByArming

/-- Of the byte events only the last byte of a GATE moves a gate state, that of its own channel. -/
theorem ByteStep.movesOnlyByArming {s t : State} (h : ByteStep s t) (p : Nat) : s.MovesOnlyByArming t p := by
  cases h with
  | note hv ho ht hx =>
    refine .of_gateState_eq rfl (State.noteDone_effects _ _ _) ?_
    rw [State.noteDone, State.driveDuty_recAt, State.recAt_setRec_ite]
    split
    · next hq => rw [hq.1]
    · rfl
  | gate hv ho ht hx he =>
    refine ⟨rfl, _, rfl, ?_⟩
    rw [State.gateDone, State.recAt_setRec_ite]
    split
    · next hq => exact .inr ⟨rfl, _, _, hq.1 ▸ ho.found, List.mem_singleton_self _⟩
    · exact .inl rfl
  | _ => exact .of_gateState_eq rfl (List.append_nil _).symm rfl

theorem exec_movesOnlyByArming {i : Instr} {s t : State} (h : exec i s = .next t) (p : Nat) : s.MovesOnlyByArming t p :=
  exec_preserves_of_byteStep (P := (s.MovesOnlyByArming · p)) (fun _ _ hu hb => hu.trans (hb.movesOnlyByArming p)) (.refl s p) h

/-- Settles O42: an instruction arms, a `Tick` takes one row of the table, `Reset` overwrites; no other step writes a record. -/
theorem gateStateMovesOnlyAroundTheCycle : Obligations.GateStateMovesOnlyAroundTheCycle := by
  intro s s' p hr hp hs hne
  rcases step_cases s with ⟨-, e⟩ | ⟨rest, hi, e⟩ | ⟨t, rest, hi, e⟩ | ⟨rest, -, e⟩ | ⟨b, bs, rest, i, r, hi, -, e⟩
  · cases e.symm.trans hs
    exact absurd rfl hne
  · obtain ⟨-, rfl⟩ := execReset_eq_next.mp (e.symm.trans hs)
    exact .inr (.inr ⟨rest, hi, congrArg EventRec.gateState (resetState_recAt (hr.2.2.symm ▸ hp))⟩)
  · have hnext := congrArg EventRec.gateState (execTick_recAt (s := s.takeEvent t rest) hr (e.symm.trans hs) hp)
    rw [hnext] at hne ⊢
    exact .inr (.inl ⟨t, rest, hi, gateRow_next_of_ne hne⟩)
  · cases e.symm.trans hs
    exact absurd rfl hne
  · obtain ⟨-, new, hnew, hkept | ⟨harmed, c, d, hl, hcall⟩⟩ := exec_movesOnlyByArming (e.symm.trans hs) p
    · exact absurd hkept hne
    · refine .inl ⟨b :: bs, rest, c, d, hi, hl, ?_, harmed⟩
      rw [hnew]
      exact List.drop_left.symm ▸ hcall

end Sys2Proof.Machine

/-! ## Exceptions (spec 60_exceptions.md)

The proofs about R230: what a refused step was refused for, and that the host's duties (R271) exclude every refusal but that of
an ill-formed configuration. -/

/-! ### The reasons for which a step stops (R7, R185(d), R230) -/

namespace Sys2Proof.Machine

/-- Where the event itself completes, only the check of the configuration refuses (R7). -/
theorem onWellFormed_next_refused {s t : State} {r : Refusal} (h : onWellFormed s (.next t) = .refused r) :
    r = .illFormedConfig ∧ s.cfg.wellFormed = false := by
  rcases onWellFormed_eq_refused.mp h with ⟨hw, hr⟩ | ⟨-, he⟩
  · exact ⟨hr, hw⟩
  · cases he

theorem gateEndOf_eq_none {t : Time} {d : Duration} (h : gateEndOf t d = none) : 2 ^ 32 ≤ t.toNat + d.toNat := by
  by_contra hn
  cases h.symm.trans (gateEndOf_fits (Nat.not_le.mp hn))

/-- The instruction `i` completes a GATE of duration `d` at position `p`: it is a whole frame, or the second data byte of the
GATE open there (R134, R161). -/
inductive State.CompletesGate (s : State) : Instr → Duration → Nat → Prop where
  | frame {c : ChanId} {d : Duration} {p : Nat} (hl : lookup s.cfg c = some p) : s.CompletesGate (.gate c d) d p
  | dataByte {x : Payload} {p : Nat} (ho : s.OpenAt p) (ht : (s.bufAt p).slots[0].tag = .gate)
      (hx : (s.bufAt p).widx = 2) : s.CompletesGate (.data x) (s.gateDur p (dataVal x)) p

section
variable {s : State} {r : Refusal} (hw : s.cfg.wellFormed = true)
include hw

theorem statusByte_not_refused (k : Kind) (c : ChanId) : statusByte k c s ≠ .refused r := fun h => by
  obtain ⟨t, ht, -⟩ := statusByte_latches k c hw
  cases ht.symm.trans h

/-- A data byte is refused only where it completes a GATE whose window does not fit (R185(d)). -/
theorem dataByte_eq_refused {v : Byte} (h : dataByte v s = .refused r) :
    r = .timestampOverflow ∧ ∃ p, s.OpenAt p ∧ (s.bufAt p).slots[0].tag = .gate ∧ (s.bufAt p).widx = 2 ∧
      2 ^ 32 ≤ s.now.toNat + (s.gateDur p v).toNat := by
  by_cases ho : ∃ p, s.OpenAt p
  swap
  · cases (dataByte_of_not_open hw ho).symm.trans h
  obtain ⟨p, ho⟩ := ho
  rcases (s.bufAt p).expects_cases with hk | ⟨ht, hx⟩ | ⟨ht, hx⟩
  · cases (dataByte_stores hw ho hk).symm.trans h
  · cases (dataByte_note hw ho ht hx).symm.trans h
  · cases he : gateEndOf s.now (s.gateDur p v) with
    | some e => cases (dataByte_gate hw ho ht hx he).symm.trans h
    | none =>
      cases (dataByte_overflow hw ho ht hx he).symm.trans h
      exact ⟨rfl, p, ho, ht, hx, gateEndOf_eq_none he⟩

/-- The data byte after a status byte is never refused. -/
theorem State.JustOpened.dataByte_not_refused {k : Kind} (hj : s.JustOpened k) (v : Byte) : dataByte v s ≠ .refused r :=
  fun h => by
    obtain ⟨-, p, ho, ht, hx, -⟩ := dataByte_eq_refused hw h
    exact hj.not_awaitsGate ⟨p, ho, ht, hx⟩

/-- The first data byte of a GATE is the unit in slot 1 (R132, R138). -/
theorem State.JustOpened.dataByte_slot_one (hj : s.JustOpened .gate) {v : Byte} {t : State} {p : Nat}
    (h : dataByte v s = .next t) (ho : t.OpenAt p) : (t.bufAt p).slots[1].val = v := by
  by_cases hs : ∃ q, s.OpenAt q
  swap
  · cases (dataByte_of_not_open hw hs).symm.trans h
    exact absurd ⟨p, ho⟩ hs
  obtain ⟨q, hq⟩ := hs
  obtain ⟨ht, hx⟩ := hj q hq
  have hk : completedKind (s.bufAt q).slots[0].tag ((s.bufAt q).widx.val + 1) = none := by rw [ht, hx]; rfl
  cases (dataByte_stores hw hq hk).symm.trans h
  obtain rfl : q = p := Option.some.inj (hq.found.symm.trans ho.found)
  rw [State.setBuf_bufAt_self _ hq.lt_bufs, AsmBuf.push_slot_self (by decide) (by rw [hx]; rfl)]

/-- A whole GATE frame is refused only by its last byte, and the duration is then that of the frame (R161, R185(d)). -/
theorem exec_gate_eq_refused {c : ChanId} {d : Duration} (h : exec (.gate c d) s = .refused r) :
    r = .timestampOverflow ∧ ∃ p, lookup s.cfg c = some p ∧ 2 ^ 32 ≤ s.now.toNat + d.toNat := by
  rcases andThen_eq_refused.mp h with h1 | ⟨t, h1, h⟩
  · exact absurd h1 (statusByte_not_refused hw .gate c)
  have b1 := statusByte_byteStep h1
  have hwt : t.cfg.wellFormed = true := b1.cfg ▸ hw
  have hj := statusByte_justOpened h1
  rcases andThen_eq_refused.mp h with h2 | ⟨u, h2, h3⟩
  · exact absurd h2 (hj.dataByte_not_refused hwt _)
  have b2 := dataByte_byteStep (isDataByte_dataVal _) h2
  have hcur : u.cur = c := by
    obtain ⟨t', h1', hc⟩ := statusByte_latches .gate c hw
    cases h1.symm.trans h1'
    exact (dataByte_cur h2).trans hc
  obtain ⟨hr, p, ho, -, -, hover⟩ := dataByte_eq_refused (b2.cfg ▸ hwt) h3
  refine ⟨hr, p, ?_, ?_⟩
  · rw [← hcur, ← b1.cfg, ← b2.cfg, ho.found]
  · rwa [State.gateDur, hj.dataByte_slot_one hwt h2 ho, gatePayload_dataVal, duration_halves, b2.now, b1.now] at hover

/-- On a well-formed configuration an instruction is refused only where it completes a GATE whose window does not fit. -/
theorem exec_eq_refused {i : Instr} (h : exec i s = .refused r) :
    r = .timestampOverflow ∧ ∃ d p, s.CompletesGate i d p ∧ 2 ^ 32 ≤ s.now.toNat + d.toNat := by
  cases i with
  | data x =>
    obtain ⟨hr, p, ho, ht, hx, hover⟩ := dataByte_eq_refused hw h
    exact ⟨hr, _, p, .dataByte ho ht hx, hover⟩
  | stNote c => exact absurd h (statusByte_not_refused hw .note c)
  | stGate c => exact absurd h (statusByte_not_refused hw .gate c)
  | rsvAB x => cases (reservedByte_discarded hw).symm.trans h
  | rsvCF x => cases (reservedByte_discarded hw).symm.trans h
  | note c n =>
    rcases andThen_eq_refused.mp h with h1 | ⟨t, h1, h2⟩
    · exact absurd h1 (statusByte_not_refused hw .note c)
    · exact absurd h2 ((statusByte_justOpened h1).dataByte_not_refused ((statusByte_byteStep h1).cfg ▸ hw) _)
  | gate c d =>
    obtain ⟨hr, p, hl, hover⟩ := exec_gate_eq_refused hw h
    exact ⟨hr, d, p, .frame hl, hover⟩

end

/-- Settles O47: `Tick` and `Reset` only check the configuration, an instruction also checks the window of a GATE it completes. -/
theorem stepsStopOnlyForTheSpecsReasons : Obligations.StepsStopOnlyForTheSpecsReasons := by
  refine fun s => ⟨(fun f => nomatch f), fun r h => ?_⟩
  rcases step_cases s with ⟨-, e⟩ | ⟨rest, -, e⟩ | ⟨t, rest, -, e⟩ | ⟨rest, -, e⟩ | ⟨x, xs, rest, i, r', hin, hd, -⟩
  · cases e.symm.trans h
  · exact .inl (onWellFormed_next_refused (e.symm.trans h))
  · exact .inl (onWellFormed_next_refused (e.symm.trans h))
  · cases e.symm.trans h
  obtain ⟨b, hb, -, e⟩ := stepRunsTheDecodedInstruction s _ rest i r' hin hd
  obtain ⟨inp, hexec⟩ : ∃ inp, exec i (s.takeEvent b.time inp) = .refused r := ⟨_, e.symm.trans h⟩
  by_cases hw : s.cfg.wellFormed = true
  swap
  · have hw := Bool.eq_false_iff.mpr hw
    cases (exec_of_illFormed i (s := s.takeEvent b.time inp) hw).symm.trans hexec
    exact .inl ⟨rfl, hw⟩
  obtain ⟨hr, d, p, hgate, hover⟩ := exec_eq_refused (s := s.takeEvent b.time inp) hw hexec
  refine .inr ⟨hr, hw, x :: xs, rest, i, r', b, d, p, hin, hd, hb, hover, ?_⟩
  cases hgate with
  | frame hl => exact .inl ⟨_, rfl, hl⟩
  | dataByte ho ht hx =>
    have ho := State.openAt_takeEvent.mp ho
    exact .inr ⟨_, rfl, ho.valid, ho.found, hx, ht, State.gateDur_toNat s p _⟩

/-- At a sample the host may supply every window fits (R185(d), R271). -/
theorem timely_fits {t : Time} (h : timely t) (d : Duration) : t.toNat + d.toNat < 2 ^ 32 := by
  have := d.isLt
  unfold timely at h
  omega

/-- Settles O46: of the reasons for which a step can stop, the first contradicts the premise on the configuration, the second that
on the sample of the GATE's last byte. -/
theorem everyStepCompletesUnderTheHostsDuties : Obligations.EveryStepCompletesUnderTheHostsDuties := by
  intro s hw htimely
  cases hs : step s with
  | next t => exact ⟨t, rfl⟩
  | fault f => cases f
  | refused r =>
    rcases (stepsStopOnlyForTheSpecsReasons s).2 r hs with
      ⟨-, hill⟩ | ⟨-, -, bytes, rest, i, r', b, d, p, hin, -, hb, hover, -⟩
    · cases hw.symm.trans hill
    · have hcall : (Input.feed bytes).Timely := htimely _ (hin ▸ List.mem_cons_self)
      exact absurd (timely_fits (hcall b (List.mem_of_getElem? hb)) d) (Nat.not_lt.mpr hover)

end Sys2Proof.Machine

/-! ## Reset and hazards (spec 70_reset_and_hazards.md)

The proof about R260: the state `Reset` leads to, element by element. -/

namespace Sys2Proof.Machine

/-- `Reset` leaves no pin HIGH: it drives the configured ones LOW and the others were never driven. -/
theorem resetState_levelAt_low {s : State} (h : s.Inv) (g : PinRoute) : (resetState s).levelAt g = .low := by
  rw [State.levelAt, resetState_pins h, readOut]

/-- Settles O33: the state reached is `resetState s`, which differs from `s` in the elements of R260 only. -/
theorem resetPutsTheBlockInItsInitialState : Obligations.ResetPutsTheBlockInItsInitialState := by
  intro s hi hw
  refine ⟨resetState s, execReset_eq_next.mpr ⟨hw, rfl⟩, rfl, rfl, fun p _ => ?_,
    fun _ hp => resetState_recAt (hi.shape.2 ▸ hp), fun _ _ => resetState_levelAt_low hi _, rfl, rfl⟩
  rw [resetState_bufAt]
  exact ⟨rfl, rfl⟩

end Sys2Proof.Machine
